-- ==== Sys2Proof/Word.lean ====
section
/-! DEFINITION. The words of the block (spec/00_scope.md R7, R9, R14): every value is unsigned. -/

namespace Sys2Proof

/-- One byte of a payload, a frame, a buffer or a line (R11). -/
abbrev Byte := BitVec 8

/-- A message priority, PRI_WIDTH bits (R7). -/
abbrev Pri := BitVec 3

/-- A Parameter Group Number, PGN_WIDTH bits (R7). -/
abbrev Pgn := BitVec 17

/-- A source or destination address, ADDR_WIDTH bits (R7). -/
abbrev Addr := BitVec 8

/-- A 29-bit extended CAN identifier (R14: `CanId = Bits29`). -/
abbrev CanId := BitVec 29

/-- A 64-bit command word CW (R54). -/
abbrev CommandWord := BitVec 64

end Sys2Proof
end

