-- ==== Sys2Proof/Config.lean ====
section
/-! DEFINITION. What an implementation binds (spec/00_scope.md R8, R13; 70_reset_and_hazards.md R129) and the free values
that the spec leaves open. The fixed values of R7 are in Machine/Operands.lean. -/

namespace Sys2Proof

/-- The two ports, one for each agent (R16, R121): TX is the send context's, RX the receive worker's. -/
inductive Port where
  | tx
  | rx
deriving DecidableEq, Repr, Inhabited

/-- A value of the field model's decimal type, as it stands on the value port VP: `mantissa * 10 ^ exponent`. The block
never inspects it (R19). DESIGN CHOICE (log entry 2): the spec gives the type no representation. -/
structure Decimal where
  mantissa : Int
  exponent : Int
deriving DecidableEq, Repr, Inhabited

/-- A field descriptor. The block reads its `width` alone (R13: "at least `width`"); `detail` stands for everything else
the field model keeps in it, such as scale and sign, and is passed to Quantize unread (log entry 2). -/
structure FieldDesc where
  width : Nat
  detail : Nat
deriving DecidableEq, Repr, Inhabited

/-- The field model's three external functions as plain data (R13, log entry 1): the PGNs for which IsFastPacket holds, the
fields FieldSchema resolves (the first entry of a key counts), and the values at which Quantize is written down; at every
other argument Quantize is the free `Config.quantize`. Every IsFastPacket and every FieldSchema is such a list. -/
structure FieldModel where
  fastPgns : List Pgn
  fields : List ((Pgn × BitVec 8) × FieldDesc)
  quanta : List ((FieldDesc × Decimal) × BitVec 64)
deriving DecidableEq, Repr, Inhabited

/-- The parameters of R8, bound before a reset and fixed until the next one (R129). `numFpSlots` is `none` for UNBOUNDED. -/
structure Binding where
  gfPgn : Pgn
  cmdPrioByte : Byte
  numFpSlots : Option Nat
  model : FieldModel
deriving DecidableEq, Repr, Inhabited

/-- FREE VALUE (log entry 1): what Quantize gives at an argument that the bound field model does not write down. -/
opaque Config.quantize : FieldDesc → Decimal → BitVec 64

/-- FREE VALUE (log entries 1 and 6): the field model bound before the first reset, of which R8 gives no default. -/
opaque Config.fieldModel : FieldModel

/-- FREE VALUE (log entry 3): which port the block serves as its n-th command when both have one waiting (R47, U29). -/
opaque Config.arbiter : Nat → Port

/-- FREE VALUE (log entry 9): what FP_SLOTS reads for a NUM_FP_SLOTS that does not fit in its 32 bits (R25). -/
opaque Config.wideSlotCount : Nat → BitVec 32

/-- The binding right after power-up: the defaults of R8, and the free field model, which has none (log entry 6). -/
def Binding.initial : Binding where
  gfPgn := 0x1ED00
  cmdPrioByte := 0xF8
  numFpSlots := none
  model := Config.fieldModel

/-- R73's premise on GF_PGN: PDU1 with low byte 0, so that a command's destination is carried. -/
def Binding.GfPgnCarriesDestination (b : Binding) : Prop :=
  (b.gfPgn.extractLsb' 8 8).toNat < 240 ∧ b.gfPgn.extractLsb' 0 8 = 0

end Sys2Proof
end

