-- ==== Sys2Proof/Syntax.lean ====
section
/-! DEFINITION. The commands: one constructor for each row of spec/opcode_table.json, with the operand fields of the row's
format (spec/30_encoding.md R55, R56), each exactly as wide as its range (R57). -/

namespace Sys2Proof

/-- A command's operation and its operands on the command word. DP, VP and the port are the state's (`Machine.Input`). -/
inductive Instr where
  /-- 0x00, format NONE (R110). -/
  | nop
  /-- 0x01, format HDR (R77). -/
  | encodeId (pri : Pri) (pgn : Pgn) (src dst : Addr)
  /-- 0x02, format ID (R78). -/
  | decodeId (id : CanId)
  /-- 0x10, format HDR (R84). -/
  | segment (pri : Pri) (pgn : Pgn) (src dst : Addr)
  /-- 0x11, format ID (R86). -/
  | accept (id : CanId)
  /-- 0x12, format NONE (R95). -/
  | fpFlush
  /-- 0x20, format GFR (R97). -/
  | buildRequest (cpgn : Pgn)
  /-- 0x21, format GFC (R99). -/
  | buildCommand (cpgn : Pgn) (dst : Addr) (fidx : BitVec 8)
  /-- 0x30, format ID (R105). -/
  | formatLine (id : CanId)
  /-- 0x31, format NONE (R106). -/
  | parseLine
  /-- 0x40, format CFGR (R108). -/
  | cfgRead (reg : BitVec 8)
  /-- 0x41, format CFGW (R109). -/
  | cfgWrite (reg : BitVec 8) (value : BitVec 32)
deriving DecidableEq, Repr

end Sys2Proof
end

