-- ==== Sys2Proof/WellFormed.lean ====
section
/-! DEFINITION. Which commands are well formed. The operands of an `Instr` are exactly as wide as their ranges, so no value
out of range can be presented (spec/30_encoding.md R57); what can be wrong with a decoded command is the port it is
issued on and the length of its DP (R58, R59). Machine/ checks both again as it executes; that the two agree is stated
in the obligations. -/

namespace Sys2Proof

/-- R59, R121: ACCEPT and FP_FLUSH are issued on the RX port only, every other command on either. -/
def Instr.portAllowed : Instr → Port → Bool
  | .accept _, p => p == .rx
  | .fpFlush, p => p == .rx
  | .nop, _ => true
  | .encodeId _ _ _ _, _ => true
  | .decodeId _, _ => true
  | .segment _ _ _ _, _ => true
  | .buildRequest _, _ => true
  | .buildCommand _ _ _, _ => true
  | .formatLine _, _ => true
  | .parseLine, _ => true
  | .cfgRead _, _ => true
  | .cfgWrite _ _, _ => true

/-- R58: the lengths of DP a command takes. SEGMENT's own limit of 223 bytes is not one of them: it has its own status. -/
def Instr.dataAllowed : Instr → Nat → Bool
  | .segment _ _ _ _, _ => true
  | .parseLine, _ => true
  | .accept _, n => n ≤ 8
  | .formatLine _, n => n ≤ 8
  | .nop, n => n == 0
  | .encodeId _ _ _ _, n => n == 0
  | .decodeId _, n => n == 0
  | .fpFlush, n => n == 0
  | .buildRequest _, n => n == 0
  | .buildCommand _ _ _, n => n == 0
  | .cfgRead _, n => n == 0
  | .cfgWrite _ _, n => n == 0

/-- A decoded command is well formed on port `p` with `n` bytes of DP. -/
def Instr.wellFormedOn (i : Instr) (p : Port) (n : Nat) : Bool :=
  i.portAllowed p && i.dataAllowed n

end Sys2Proof
end

