-- ==== Sys2Proof/Decode.lean ====
section
/-! DEFINITION. The command word: the formats and the opcode map of spec/30_encoding.md R54 to R60 (opcode_table.json), the
decoder, total on every word and rejecting by name, and the encoder. -/

namespace Sys2Proof

/-- Bits `lo + n - 1` down to `lo` of a command word, read as they stand (R57). -/
def field (cw : CommandWord) (lo n : Nat) : BitVec n := cw.extractLsb' lo n

/-- The opcode, `CW[7:0]` (R54). -/
def opcodeOf (cw : CommandWord) : BitVec 8 := field cw 0 8

/-- Why a word selects no row (R59); either way the command raises IllegalOperation. -/
inductive DecodeError where
  /-- The opcode is listed nowhere in R56. -/
  | unlistedOpcode (opcode : BitVec 8)
  /-- The opcode is the named command's, and a bit its format reserves is set. -/
  | reservedBitSet (mnemonic : String)
deriving DecidableEq, Repr

/-- One row of the opcode map (R56): a word selects it when `cw &&& mask = value`, and `read` takes its fields (R55). -/
structure OpcodeRow where
  mnemonic : String
  opcode : BitVec 8
  value : CommandWord
  mask : CommandWord
  read : CommandWord → Instr

/-- The opcode map of R56, with the fields of R55. -/
def opcodeRows : List OpcodeRow := [
  ⟨"NOP", 0x00, 0x0000000000000000, 0xFFFFFFFFFFFFFFFF, fun _ => .nop⟩,
  ⟨"ENCODE_ID", 0x01, 0x0000000000000001, 0xFF0000FE0000F8FF,
    fun cw => .encodeId (field cw 8 3) (field cw 16 17) (field cw 40 8) (field cw 48 8)⟩,
  ⟨"DECODE_ID", 0x02, 0x0000000000000002, 0xFFFFFFE0000000FF, fun cw => .decodeId (field cw 8 29)⟩,
  ⟨"SEGMENT", 0x10, 0x0000000000000010, 0xFF0000FE0000F8FF,
    fun cw => .segment (field cw 8 3) (field cw 16 17) (field cw 40 8) (field cw 48 8)⟩,
  ⟨"ACCEPT", 0x11, 0x0000000000000011, 0xFFFFFFE0000000FF, fun cw => .accept (field cw 8 29)⟩,
  ⟨"FP_FLUSH", 0x12, 0x0000000000000012, 0xFFFFFFFFFFFFFFFF, fun _ => .fpFlush⟩,
  ⟨"BUILD_REQUEST", 0x20, 0x0000000000000020, 0xFFFFFFFFFE0000FF, fun cw => .buildRequest (field cw 8 17)⟩,
  ⟨"BUILD_COMMAND", 0x21, 0x0000000000000021, 0xFFFF0000FE0000FF,
    fun cw => .buildCommand (field cw 8 17) (field cw 32 8) (field cw 40 8)⟩,
  ⟨"FORMAT_LINE", 0x30, 0x0000000000000030, 0xFFFFFFE0000000FF, fun cw => .formatLine (field cw 8 29)⟩,
  ⟨"PARSE_LINE", 0x31, 0x0000000000000031, 0xFFFFFFFFFFFFFFFF, fun _ => .parseLine⟩,
  ⟨"CFG_READ", 0x40, 0x0000000000000040, 0xFFFFFFFFFFFF00FF, fun cw => .cfgRead (field cw 8 8)⟩,
  ⟨"CFG_WRITE", 0x41, 0x0000000000000041, 0xFFFF0000000000FF,
    fun cw => .cfgWrite (field cw 8 8) (field cw 16 32)⟩]

/-- The row of an opcode; at most one, since the opcodes differ (R56). -/
def rowOf? (opcode : BitVec 8) : Option OpcodeRow := opcodeRows.find? (·.opcode == opcode)

/-- The decoder: the row a word selects, read (R56); otherwise why it selects none (R59). -/
def decode (cw : CommandWord) : Except DecodeError Instr :=
  match rowOf? (opcodeOf cw) with
  | none => .error (.unlistedOpcode (opcodeOf cw))
  | some row => if cw &&& row.mask = row.value then .ok (row.read cw) else .error (.reservedBitSet row.mnemonic)

/-- The word of an opcode alone: every other bit 0. -/
def encodeOp (opcode : BitVec 8) : CommandWord := opcode.setWidth 64

/-- Format HDR (R55). -/
def encodeHdr (opcode : BitVec 8) (pri : Pri) (pgn : Pgn) (src dst : Addr) : CommandWord :=
  encodeOp opcode ||| pri.setWidth 64 <<< 8 ||| pgn.setWidth 64 <<< 16 ||| src.setWidth 64 <<< 40
    ||| dst.setWidth 64 <<< 48

/-- Format ID (R55). -/
def encodeIdWord (opcode : BitVec 8) (id : CanId) : CommandWord := encodeOp opcode ||| id.setWidth 64 <<< 8

/-- The encoder: the word of a command, every reserved bit 0 (R55, R56). -/
def encode : Instr → CommandWord
  | .nop => encodeOp 0x00
  | .encodeId pri pgn src dst => encodeHdr 0x01 pri pgn src dst
  | .decodeId id => encodeIdWord 0x02 id
  | .segment pri pgn src dst => encodeHdr 0x10 pri pgn src dst
  | .accept id => encodeIdWord 0x11 id
  | .fpFlush => encodeOp 0x12
  | .buildRequest cpgn => encodeOp 0x20 ||| cpgn.setWidth 64 <<< 8
  | .buildCommand cpgn dst fidx =>
    encodeOp 0x21 ||| cpgn.setWidth 64 <<< 8 ||| dst.setWidth 64 <<< 32 ||| fidx.setWidth 64 <<< 40
  | .formatLine id => encodeIdWord 0x30 id
  | .parseLine => encodeOp 0x31
  | .cfgRead reg => encodeOp 0x40 ||| reg.setWidth 64 <<< 8
  | .cfgWrite reg value => encodeOp 0x41 ||| reg.setWidth 64 <<< 8 ||| value.setWidth 64 <<< 16

/-- The command word whose low `nbits` bits are those of `w`, every bit above them 0. A command word is one 64-bit
value and crosses the port as a number, so there is no byte order to apply (R42, R54). -/
def tableWord (nbits w : Nat) : CommandWord := BitVec.ofNat 64 (w % 2 ^ nbits)

/-- The instruction the decoder reads from the word whose low `nbits` bits are `w`'s. -/
def decodeTableWord (nbits w : Nat) : Option Instr :=
  match decode (tableWord nbits w) with
  | .ok i => some i
  | .error _ => none

end Sys2Proof
end

