-- ==== Sys2Proof/Machine/State.lean ====
section
/-! DEFINITION. The state as plain data (spec/10_state.md). The block's own state is the pair (LOCAL_ADDR, T) of R32; the
other fields are the parameters bound for the run, the two ports and what the host sees of them (INVENTORY.md, State). -/

namespace Sys2Proof.Machine

/-- Why the machine stops. -/
inductive Fault where
  /-- Raised by ACCEPT's MemWrite when its requirement fails: the offset is not the buffer's length, or the write passes
  offset 222 (R34, R36). Only an entry that breaks R27 can meet it, so no run reaches it. Safe (log entry 8). -/
  | bufferRange
deriving DecidableEq, Repr

/-- Why the machine gives an instruction no meaning. -/
inductive Refusal where
  /-- Raised by an arm of `exec` that has no meaning yet; no arm does. Safe. -/
  | notModelled (mnemonic : String)
deriving DecidableEq, Repr

/-- A CAN frame (R14, R65); the DLC is the number of data bytes. -/
structure Frame where
  id : CanId
  data : List Byte
deriving DecidableEq, Repr

/-- The four values an identifier carries, in the order of HDR (R20). -/
structure Header where
  pri : Pri
  pgn : Pgn
  src : Addr
  dst : Addr
deriving DecidableEq, Repr

/-- A message envelope (R14): its header and its payload. -/
structure PgnMessage extends Header where
  payload : List Byte
deriving DecidableEq, Repr

/-- Why ACCEPT discards a frame (R22). -/
inductive DiscardReason where
  | orphan
  | outOfSequence
  | shortFrame
  | badLength
  | noSlot
deriving DecidableEq, Repr

/-- ACCEPT's verdict (R22); the message of a Completed verdict is in MSG. -/
inductive Verdict where
  | inProgress
  | completed
  | discarded (reason : DiscardReason)
deriving DecidableEq, Repr

/-- The status a command ends with (R111); its code on the result port is `Status.code`. -/
inductive Status where
  | ok
  | invalidAddressing
  | schemaResolutionError
  | payloadTooLong
  | configNotSet
  | illegalOperation
  | readOnlyRegister
  | malformedLine
deriving DecidableEq, Repr

/-- The result bundle of R20. A field that a command does not fill is `none` or empty. -/
structure Result where
  status : BitVec 8
  id : Option CanId := none
  hdr : Option Header := none
  frames : List Frame := []
  msg : Option PgnMessage := none
  verdict : Option Verdict := none
  cfgval : Option (BitVec 32) := none
  line : List Byte := []
deriving DecidableEq, Repr

/-- A command bundle as an agent presents it on its port (R19), fixed when it is issued (R53). -/
structure Command where
  cw : CommandWord
  dp : List Byte
  vp : Decimal
deriving DecidableEq, Repr

/-- What the command in execution reads beside its word: the port it was issued on, DP and VP (R19). -/
structure Input where
  port : Port
  dp : List Byte
  vp : Decimal
deriving DecidableEq, Repr

/-- What stands there between commands, when no port holds a value (R17). DESIGN CHOICE (log entry 4). -/
def Input.idle : Input := ⟨.rx, [], ⟨0, 0⟩⟩

/-- One result given to the host, and the port it was given on. -/
structure Answer where
  port : Port
  result : Result
deriving DecidableEq, Repr

/-- A reassembly entry (R27): the declared length, the bytes accumulated, the last counter taken, and the buffer. -/
structure Entry where
  total : Nat
  acc : Nat
  last : Nat
  buf : List Byte
deriving DecidableEq, Repr

/-- The reassembly table T (R26), the block's only memory (R35): identifiers strictly rising, each with its entry; an
identifier that is not listed reads `none`. -/
abbrev Memory := List (CanId × Entry)

/-- The canonical form of T: identifiers strictly rising, so that equal tables are equal data. -/
def Memory.wf (t : Memory) : Bool := t.Pairwise fun a b => a.1.toNat < b.1.toNat

/-- The machine's state. -/
structure State where
  /-- LOCAL_ADDR, REG 0x00: UNSET (`none`) or the block's own source address (R24). -/
  localAddr : Option Addr
  /-- T, the Fast Packet reassembly table (R26). -/
  table : Memory
  /-- The parameters and external functions, bound before the last reset; no command writes them (R129, log entry 1). -/
  bind : Binding
  /-- The model's own: the port, DP and VP of the command in execution (R19). -/
  inp : Input
  /-- The model's own: the commands the send context still issues, in its order (R18, R121). -/
  tx : List Command
  /-- The model's own: the commands the receive worker still issues, in its order (R18, R121). -/
  rx : List Command
  /-- The model's own: the results given so far, oldest first (R20). -/
  answers : List Answer
  /-- The model's own: how many commands have been taken, the index of the arbiter's next choice (R47). -/
  taken : Nat
  /-- The model's own: the external reset input and the binding that holds after it (R127, R129). -/
  resetIn : Option Binding
deriving DecidableEq, Repr

/-- The machine right after reset (R128): LOCAL_ADDR UNSET and no reassembly in progress. -/
def State.reset : State where
  localAddr := none
  table := []
  bind := Binding.initial
  inp := Input.idle
  tx := []
  rx := []
  answers := []
  taken := 0
  resetIn := none

/-- The three outcomes of a step of this machine. -/
abbrev Outcome := Host.Outcome State Fault Refusal

end Sys2Proof.Machine
end

