-- ==== Sys2Proof/Machine/Flags.lean ====
section
/-! DEFINITION. STATUS and VERDICT, the block's only condition codes (spec/10_state.md R21, R22; 60_exceptions.md R111),
and the two ways a result is made (R20, R112). -/

namespace Sys2Proof.Machine

/-- The status codes of R111. -/
def Status.code : Status → BitVec 8
  | .ok => 0x00
  | .invalidAddressing => 0x01
  | .schemaResolutionError => 0x02
  | .payloadTooLong => 0x03
  | .configNotSet => 0x04
  | .illegalOperation => 0x05
  | .readOnlyRegister => 0x06
  | .malformedLine => 0x07

/-- The numbers R22 gives the discard reasons. -/
def DiscardReason.code : DiscardReason → Nat
  | .orphan => 1
  | .outOfSequence => 2
  | .shortFrame => 3
  | .badLength => 4
  | .noSlot => 5

/-- The result of a command that succeeds and fills nothing else; an opcode's rule says what it fills (R20). -/
def Result.ok : Result where
  status := Status.code .ok

/-- The result of a raise: STATUS and nothing else (R112). -/
def Result.raised (st : Status) : Result where
  status := Status.code st

/-- The result of an ACCEPT whose verdict is Completed: MSG holds the message (R22). -/
def Result.completed (m : PgnMessage) : Result where
  status := Status.code .ok
  verdict := some .completed
  msg := some m

/-- The result of an ACCEPT whose verdict carries no message: STATUS is OK all the same (R22, R113). -/
def Result.verdictOnly (v : Verdict) : Result where
  status := Status.code .ok
  verdict := some v

/-- What every result obeys: its status is one R111 lists, and when it is not OK every other field is empty (R20, R112). -/
def Result.wf (r : Result) : Bool :=
  r.status.toNat ≤ 0x07 && (r.status == Status.code .ok || r == { status := r.status })

end Sys2Proof.Machine
end

