-- ==== Sys2Proof/Machine/Ops.lean ====
section
/-! DEFINITION. The shared operations: the reassembly table and its buffers (spec/10_state.md R26 to R28, 20_memory.md R35 to
R37), ending a command and raising a status (60_exceptions.md R112), reset (70_reset_and_hazards.md R127, R128), taking the
next command from a port (20_memory.md R47, R53) and the host's own actions. -/

namespace Sys2Proof.Machine

/-! ## The reassembly table T -/

/-- `T[id]` (R12, R26). -/
def Memory.get (t : Memory) (id : CanId) : Option Entry :=
  match t with
  | [] => none
  | (k, e) :: rest => if k = id then some e else Memory.get rest id

/-- `T[id] <- none` (R12). -/
def Memory.erase (t : Memory) (id : CanId) : Memory :=
  match t with
  | [] => []
  | (k, e) :: rest => if k = id then Memory.erase rest id else (k, e) :: Memory.erase rest id

/-- An entry put in its place among rising identifiers. -/
def Memory.insert (t : Memory) (id : CanId) (e : Entry) : Memory :=
  match t with
  | [] => [(id, e)]
  | (k, f) :: rest => if id.toNat < k.toNat then (id, e) :: (k, f) :: rest else (k, f) :: Memory.insert rest id e

/-- `T[id] <- e` (R12). -/
def Memory.set (t : Memory) (id : CanId) (e : Entry) : Memory := (t.erase id).insert id e

/-- `count(T)`: how many identifiers have an entry (R25, R86). -/
def Memory.count (t : Memory) : Nat := t.length

/-- One byte of the reassembly space, at `(id, off)` (R34, R35); `none` where nothing is written. -/
def Memory.readByte (t : Memory) (id : CanId) (off : Nat) : Option Byte :=
  match t.get id with
  | none => none
  | some e => e.buf[off]?

/-- Whether another entry finds room: fewer than NUM_FP_SLOTS entries exist (R28, R86). -/
def Memory.hasSlot (t : Memory) (slots : Option Nat) : Bool :=
  match slots with
  | none => true
  | some n => t.count < n

/-! ## A reassembly buffer -/

/-- FP_MAX_LEN, the capacity of a buffer (R7, R35). -/
abbrev fpMaxLen : Nat := 223

/-- What `MemWrite((id, off), n, v)` requires of the entry: `off` is the buffer's length (R36), and the last offset
written exists (R34, R35). -/
def Entry.canWrite (e : Entry) (off n : Nat) : Bool := off == e.buf.length && off + n ≤ fpMaxLen

/-- `MemWrite((id, e.acc), n, v)` of a continuation frame: the bytes are appended, `acc` grows by n, and `last` is the
frame's counter (R36, R90). -/
def Entry.append (e : Entry) (v : List Byte) (counter : Nat) : Entry :=
  { e with acc := e.acc + v.length, last := counter, buf := e.buf ++ v }

/-- `MemRead((id, 0), n)` (R36). -/
def Entry.read (e : Entry) (n : Nat) : List Byte := e.buf.take n

/-! ## Ending a command -/

/-- A command ends with result `r` on its port; the port then holds nothing (R17, R20). -/
def State.respond (s : State) (r : Result) : State :=
  { s with answers := s.answers ++ [⟨s.inp.port, r⟩], inp := Input.idle }

/-- `return`: the command ends with status OK and what it filled (R12). -/
def complete (r : Result) (s : State) : Outcome := .next (s.respond r)

/-- `raise`: the command ends at once with a status and no other effect, and the next command is the next step
(R112, R117). There is no trap to enter, and so none to return from (R117, R118). -/
def raise (st : Status) (s : State) : Outcome := .next (s.respond (Result.raised st))

/-- LOCAL_ADDR is written (R24). -/
def State.setLocalAddr (s : State) (a : Addr) : State := { s with localAddr := some a }

/-- T is written (R29). -/
def State.setTable (s : State) (t : Memory) : State := { s with table := t }

/-! ## Reset -/

/-- The reset event, between two commands (R127): LOCAL_ADDR is UNSET, T is empty, the parameters are those bound for the
run that starts, and no port holds a value (R128, R129). Commands not yet issued and answers already given are the
host's (log entry 7). -/
def State.takeReset (s : State) (b : Binding) : State :=
  { s with localAddr := none, table := [], bind := b, inp := Input.idle, resetIn := none }

/-! ## Taking the next command -/

/-- The commands waiting on a port. -/
def State.waiting (s : State) : Port → List Command
  | .tx => s.tx
  | .rx => s.rx

/-- The port served next: the one with a command, and where both have one, the arbiter's choice, which nothing
constrains (R47, log entry 3). -/
def State.nextPort (s : State) : Option Port :=
  match s.tx, s.rx with
  | [], [] => none
  | _ :: _, [] => some .tx
  | [], _ :: _ => some .rx
  | _ :: _, _ :: _ => some (Config.arbiter s.taken)

/-- The waiting commands of a port replaced. -/
def State.setWaiting (s : State) (p : Port) (cs : List Command) : State :=
  match p with
  | .tx => { s with tx := cs }
  | .rx => { s with rx := cs }

/-- Command `c` of port `p` enters execution, `rest` still waiting behind it: DP and VP are read once, as they stand
(R19, R53). -/
def State.latch (s : State) (p : Port) (c : Command) (rest : List Command) : State :=
  { s.setWaiting p rest with inp := ⟨p, c.dp, c.vp⟩, taken := s.taken + 1 }

/-- The next command of port `p`, with the state that executes it. -/
def State.fetch (s : State) (p : Port) : Option (CommandWord × State) :=
  match s.waiting p with
  | [] => none
  | c :: rest => some (c.cw, s.latch p c rest)

/-! ## The host's actions, between steps (R122, R127, R136) -/

/-- An agent issues a command on its port, behind those it has issued before. -/
def State.present (s : State) (p : Port) (c : Command) : State := s.setWaiting p (s.waiting p ++ [c])

/-- The host asserts the reset input, with the parameters it has bound (R129, R130). -/
def State.assertReset (s : State) (b : Binding) : State := { s with resetIn := some b }

/-- The host changes IsFastPacket without a reset, which it must do only after FP_FLUSH (R136, log entry 11). It can change
no other parameter or external function so: those stay fixed until the next reset (R129). -/
def State.changeFastPgns (s : State) (pgns : List Pgn) : State :=
  { s with bind := { s.bind with model := { s.bind.model with fastPgns := pgns } } }

end Sys2Proof.Machine
end

