-- ==== Sys2Proof/Machine/Operands.lean ====
section
/-! DEFINITION. What commands read: the fixed values (spec/00_scope.md R7), byte sequences (R11), the port and DP checks
(30_encoding.md R58, R59; 60_exceptions.md R115), the field model (R13) and the configuration registers
(10_state.md R23 to R25). -/

namespace Sys2Proof.Machine

/-! ## Fixed values (R7); `fpMaxLen` is in Machine/Ops.lean -/

/-- PDU2_THRESHOLD (R64). -/
abbrev pdu2Threshold : Nat := 240

/-- BROADCAST. -/
def broadcast : Addr := 0xFF

/-- SINGLE_FRAME_MAX (R66). -/
abbrev singleFrameMax : Nat := 8

/-- MAX_DLC: the data bytes of a frame (R65). -/
abbrev maxDlc : Nat := 8

/-- FP_HEADER_BASE: the header pattern 0b010 in bits 7 to 5 (R68). -/
def fpHeaderBase : Byte := 0x40

/-- FP_FILLER. -/
def fpFiller : Byte := 0xFF

/-- FP_CHUNK: stream bytes of one Fast Packet frame (R67). -/
abbrev fpChunk : Nat := 7

/-- Payload bytes of a frame 0 (R67). -/
abbrev fpFirstChunk : Nat := 6

/-- GF_PRIORITY (R72). -/
def gfPriority : Pri := 2

/-- MFR_CODE. -/
def mfrCode : BitVec 16 := 2020

/-- INDUSTRY_CODE. -/
def industryCode : Byte := 4

/-! ## Byte sequences (R11) -/

/-- Byte `j` of a value, counting from the least significant. -/
def byteAt {n : Nat} (v : BitVec n) (j : Nat) : Byte := v.extractLsb' (8 * j) 8

/-- `le16(v)`: least significant byte first (R11, R39). -/
def le16 (v : BitVec 16) : List Byte := [byteAt v 0, byteAt v 1]

/-- `le24(v)`: least significant byte first (R11, R39). -/
def le24 (v : BitVec 24) : List Byte := [byteAt v 0, byteAt v 1, byteAt v 2]

/-! ## The checks before an opcode's own, in the order of R115: the port, then the length of DP -/

/-- R59, R121: a command valid on the RX port only. -/
def onRxPort (s : State) (body : Outcome) : Outcome :=
  if s.inp.port = .rx then body else raise .illegalOperation s

/-- R58: a command that takes no data. -/
def withEmptyDp (s : State) (body : Outcome) : Outcome :=
  if s.inp.dp.length = 0 then body else raise .illegalOperation s

/-- R58: a command that takes a frame's data, 0 to 8 bytes. -/
def withFrameDp (s : State) (body : Outcome) : Outcome :=
  if s.inp.dp.length ≤ maxDlc then body else raise .illegalOperation s

/-! ## The field model (R13) -/

/-- `IsFastPacket(pgn)`. -/
def isFastPacket (m : FieldModel) (pgn : Pgn) : Bool := m.fastPgns.contains pgn

/-- `FieldSchema(pgn, i)`. -/
def fieldSchema (m : FieldModel) (pgn : Pgn) (i : BitVec 8) : Option FieldDesc :=
  match m.fields.find? (fun f => f.1 == (pgn, i)) with
  | some f => some f.2
  | none => none

/-- `Quantize(fd, x)`: as written down, and a free value elsewhere (log entry 1). -/
def quantize (m : FieldModel) (fd : FieldDesc) (x : Decimal) : BitVec 64 :=
  match m.quanta.find? (fun q => q.1 == (fd, x)) with
  | some q => q.2
  | none => Config.quantize fd x

/-! ## The configuration registers (R23) -/

/-- The registers of R23. -/
inductive CfgReg where
  | localAddr
  | mfrCode
  | industryCode
  | gfPgn
  | cmdPrioByte
  | fpActive
  | fpSlots
  | gfPriority
deriving DecidableEq, Repr

/-- The register a number names; a number outside the table names none (R23). -/
def cfgRegOf (reg : BitVec 8) : Option CfgReg :=
  match reg.toNat with
  | 0x00 => some .localAddr
  | 0x01 => some .mfrCode
  | 0x02 => some .industryCode
  | 0x03 => some .gfPgn
  | 0x04 => some .cmdPrioByte
  | 0x05 => some .fpActive
  | 0x06 => some .fpSlots
  | 0x07 => some .gfPriority
  | _ => none

/-- What FP_SLOTS reads: 0 for UNBOUNDED (R25). A count beyond the register's 32 bits reads as a free value (log entry 9). -/
def slotsValue (slots : Option Nat) : BitVec 32 :=
  match slots with
  | none => 0
  | some n => if n < 2 ^ 32 then BitVec.ofNat 32 n else Config.wideSlotCount n

/-- A register's value on the 32-bit port, bits above its width 0 (R23 to R25); `none` while LOCAL_ADDR is UNSET. -/
def State.readCfg (s : State) : CfgReg → Option (BitVec 32)
  | .localAddr => s.localAddr.map (·.setWidth 32)
  | .mfrCode => some (mfrCode.setWidth 32)
  | .industryCode => some (industryCode.setWidth 32)
  | .gfPgn => some (s.bind.gfPgn.setWidth 32)
  | .cmdPrioByte => some (s.bind.cmdPrioByte.setWidth 32)
  | .fpActive => some (BitVec.ofNat 32 s.table.count)
  | .fpSlots => some (slotsValue s.bind.numFpSlots)
  | .gfPriority => some (gfPriority.setWidth 32)

end Sys2Proof.Machine
end

