-- ==== Sys2Proof/Machine/DiagConfig.lean ====
section
/-! DEFINITION. The diagnostic line and the configuration: FORMAT_LINE, PARSE_LINE, CFG_READ, CFG_WRITE and NOP
(spec/43_diag_and_config.md; the line in 30_encoding.md R76). -/

namespace Sys2Proof.Machine

/-! ## The diagnostic line (R76) -/

/-- One upper-case hexadecimal digit as an ASCII byte. -/
def hexDigit (v : BitVec 4) : Byte :=
  if v.toNat < 10 then BitVec.ofNat 8 (0x30 + v.toNat) else BitVec.ofNat 8 (0x41 + (v.toNat - 10))

/-- `HEX(v, k)`: k digits, most significant first (R105). -/
def hexDigits {n : Nat} (v : BitVec n) (k : Nat) : List Byte :=
  (List.range k).map fun j => hexDigit (v.extractLsb' (4 * (k - 1 - j)) 4)

/-- CR LF. -/
def lineEnd : List Byte := [0x0D, 0x0A]

/-- The line of a frame (R76). -/
def lineOf (f : Frame) : List Byte :=
  hexDigits (f.id.setWidth 32) 8 ++ f.data.flatMap (fun b => 0x20 :: hexDigits b 2) ++ lineEnd

/-- The value of an ASCII hexadecimal digit of either case (R106). -/
def hexValue (b : Byte) : Option (BitVec 4) :=
  let n := b.toNat
  if 0x30 ≤ n ∧ n ≤ 0x39 then some (BitVec.ofNat 4 (n - 0x30))
  else if 0x41 ≤ n ∧ n ≤ 0x46 then some (BitVec.ofNat 4 (n - 0x41 + 10))
  else if 0x61 ≤ n ∧ n ≤ 0x66 then some (BitVec.ofNat 4 (n - 0x61 + 10))
  else none

/-- The value of `k` hexadecimal digits and what follows them; `acc` is the value of the digits before. -/
def parseDigits (k acc : Nat) (text : List Byte) : Option (Nat × List Byte) :=
  match k, text with
  | 0, rest => some (acc, rest)
  | _ + 1, [] => none
  | k + 1, b :: rest =>
    match hexValue b with
    | none => none
    | some v => parseDigits k (16 * acc + v.toNat) rest

/-- `( SP H H ){0..k} CR LF`, to the end of the text (R106). -/
def parseTail (k : Nat) (text : List Byte) : Option (List Byte) :=
  if text = lineEnd then some []
  else
    match k, text with
    | k + 1, sp :: hi :: lo :: rest =>
      if sp = 0x20 then
        match hexValue hi, hexValue lo, parseTail k rest with
        | some h, some l, some bytes => some ((h ++ l) :: bytes)
        | _, _, _ => none
      else none
    | _, _ => none

/-- The frame of a line: the grammar, then the identifier's range (R106, R115). -/
def parseLine (text : List Byte) : Except Status Frame :=
  match parseDigits 8 0 text with
  | none => .error .malformedLine
  | some (v, rest) =>
    match parseTail maxDlc rest with
    | none => .error .malformedLine
    | some bytes => if v < 2 ^ 29 then .ok ⟨BitVec.ofNat 29 v, bytes⟩ else .error .malformedLine

/-- FORMAT_LINE (R105). -/
def execFormatLine (id : CanId) (s : State) : Outcome :=
  withFrameDp s <| complete { Result.ok with line := lineOf ⟨id, s.inp.dp⟩ } s

/-- PARSE_LINE (R106). -/
def execParseLine (s : State) : Outcome :=
  match parseLine s.inp.dp with
  | .error st => raise st s
  | .ok f => complete { Result.ok with id := some f.id, frames := [f] } s

/-! ## Configuration -/

/-- CFG_READ (R108). -/
def execCfgRead (reg : BitVec 8) (s : State) : Outcome :=
  withEmptyDp s <|
    match cfgRegOf reg with
    | none => raise .illegalOperation s
    | some r =>
      match s.readCfg r with
      | none => raise .configNotSet s
      | some v => complete { Result.ok with cfgval := some v } s

/-- CFG_WRITE (R109), its checks in the order shown there. -/
def execCfgWrite (reg : BitVec 8) (value : BitVec 32) (s : State) : Outcome :=
  withEmptyDp s <|
    match cfgRegOf reg with
    | none => raise .illegalOperation s
    | some .localAddr =>
      if value.extractLsb' 8 24 = 0 then complete Result.ok (s.setLocalAddr (value.extractLsb' 0 8))
      else raise .illegalOperation s
    | some _ => raise .readOnlyRegister s

/-- NOP (R110). -/
def execNop (s : State) : Outcome := withEmptyDp s <| complete Result.ok s

end Sys2Proof.Machine
end

