-- ==== Sys2Proof/Machine/Codec.lean ====
section
/-! DEFINITION. The address codec: ENCODE_ID and DECODE_ID (spec/40_address_codec.md). -/

namespace Sys2Proof.Machine

/-- The PDU-format byte of a PGN, bits 15 to 8 (R63). -/
def pduFormat (g : Pgn) : Byte := g.extractLsb' 8 8

/-- A PGN is PDU1, with its destination carried, when its PDU-format byte is below 240 (R64). -/
def isPdu1 (g : Pgn) : Bool := (pduFormat g).toNat < pdu2Threshold

/-- `Encode` of R77, which SEGMENT also calls. -/
def encodeCanId (p : Pri) (g : Pgn) (s d : Addr) : Except Status CanId :=
  if isPdu1 g then
    if g.extractLsb' 0 8 = 0 then
      .ok (p.setWidth 29 <<< 26 ||| g.setWidth 29 <<< 8 ||| d.setWidth 29 <<< 8 ||| s.setWidth 29)
    else .error .invalidAddressing
  else .ok (p.setWidth 29 <<< 26 ||| g.setWidth 29 <<< 8 ||| s.setWidth 29)

/-- The PGN of a data page, a PDU format and a low byte (R63). -/
def pgnOf (dp : BitVec 1) (pf low : Byte) : Pgn :=
  dp.setWidth 17 <<< 16 ||| pf.setWidth 17 <<< 8 ||| low.setWidth 17

/-- `Decode` of R78, which ACCEPT also calls. -/
def decodeCanId (id : CanId) : Header :=
  let pf : Byte := id.extractLsb' 16 8
  let dp : BitVec 1 := id.extractLsb' 24 1
  let low : Byte := id.extractLsb' 8 8
  if pf.toNat < pdu2Threshold then ⟨id.extractLsb' 26 3, pgnOf dp pf 0, id.extractLsb' 0 8, low⟩
  else ⟨id.extractLsb' 26 3, pgnOf dp pf low, id.extractLsb' 0 8, broadcast⟩

/-- ENCODE_ID (R77). -/
def execEncodeId (pri : Pri) (pgn : Pgn) (src dst : Addr) (s : State) : Outcome :=
  withEmptyDp s <|
    match encodeCanId pri pgn src dst with
    | .error st => raise st s
    | .ok id => complete { Result.ok with id := some id } s

/-- DECODE_ID (R78). -/
def execDecodeId (id : CanId) (s : State) : Outcome :=
  withEmptyDp s <| complete { Result.ok with hdr := some (decodeCanId id) } s

end Sys2Proof.Machine
end

