-- ==== Sys2Proof/Machine/FastPacket.lean ====
section
/-! DEFINITION. The Fast Packet engine: SEGMENT, ACCEPT and FP_FLUSH (spec/41_fast_packet.md). -/

namespace Sys2Proof.Machine

/-! ## SEGMENT (R84) -/

/-- The filler bytes of a payload of `n` bytes (R69). -/
def streamPad (n : Nat) : Nat := (7 - (n + 1) % 7) % 7

/-- The Fast Packet stream of a payload: its length, the payload and the filler (R69). -/
def fpStream (payload : List Byte) : List Byte :=
  BitVec.ofNat 8 payload.length :: payload ++ List.replicate (streamPad payload.length) fpFiller

/-- The data of Fast Packet frame `i`: the header byte and stream bytes `7i` to `7i + 6` (R67, R68). -/
def fpFrameData (stream : List Byte) (i : Nat) : List Byte :=
  (fpHeaderBase ||| BitVec.ofNat 8 i) :: (stream.drop (fpChunk * i)).take fpChunk

/-- The frames of a payload, all of one identifier, in emission order (R66, R67, R84). -/
def segmentFrames (id : CanId) (payload : List Byte) : List Frame :=
  if payload.length ≤ singleFrameMax then [⟨id, payload⟩]
  else
    let stream := fpStream payload
    (List.range (stream.length / fpChunk)).map fun i => ⟨id, fpFrameData stream i⟩

/-- SEGMENT (R84): the length is checked before the identifier, and the identifier before any frame is emitted. -/
def execSegment (pri : Pri) (pgn : Pgn) (src dst : Addr) (s : State) : Outcome :=
  if s.inp.dp.length > fpMaxLen then raise .payloadTooLong s
  else
    match encodeCanId pri pgn src dst with
    | .error st => raise st s
    | .ok id => complete { Result.ok with frames := segmentFrames id s.inp.dp } s

/-! ## ACCEPT (R86) -/

/-- The sequence counter of a Fast Packet frame's data, `DP[0][4:0]`; bits 7 to 5 are not checked (R68). -/
def counterOf (dp : List Byte) : Nat :=
  match dp with
  | [] => 0
  | b :: _ => (b.extractLsb' 0 5).toNat

/-- The total length a frame 0 declares, `DP[1]` (R89). -/
def declaredLength (dp : List Byte) : Nat :=
  match dp with
  | _ :: b :: _ => b.toNat
  | _ => 0

/-- The message an identifier's header and a payload make (R86, R91). -/
def messageOf (id : CanId) (payload : List Byte) : PgnMessage :=
  { toHeader := decodeCanId id, payload := payload }

/-- The entry a frame 0 starts: bytes 2 to 7 of its data are written at offset 0 of an empty buffer, which R36 always
allows (R89). -/
def startEntry (dp : List Byte) : Entry where
  total := declaredLength dp
  acc := fpFirstChunk
  last := 0
  buf := (dp.drop 2).take fpFirstChunk

/-- Frame 0 (R89): any entry of the identifier is dropped, then the length decides. -/
def acceptFirst (id : CanId) (s : State) : Outcome :=
  let t := s.table.erase id
  let total := declaredLength s.inp.dp
  if total > fpMaxLen then
    complete (Result.verdictOnly (.discarded .badLength)) (s.setTable t)
  else if total ≤ fpFirstChunk then
    complete (Result.completed (messageOf id ((s.inp.dp.drop 2).take total))) (s.setTable t)
  else if t.hasSlot s.bind.numFpSlots then
    complete (Result.verdictOnly .inProgress) (s.setTable (t.set id (startEntry s.inp.dp)))
  else
    complete (Result.verdictOnly (.discarded .noSlot)) (s.setTable t)

/-- A continuation frame with counter `c` for an identifier with entry `e` (R90, R91). -/
def acceptNext (id : CanId) (e : Entry) (c : Nat) (s : State) : Outcome :=
  if c = e.last + 1 then
    if e.canWrite e.acc ((s.inp.dp.drop 1).take fpChunk).length then
      let e' := e.append ((s.inp.dp.drop 1).take fpChunk) c
      if e'.acc ≥ e'.total then
        complete (Result.completed (messageOf id (e'.read e'.total))) (s.setTable (s.table.erase id))
      else
        complete (Result.verdictOnly .inProgress) (s.setTable (s.table.set id e'))
    else .fault .bufferRange
  else
    complete (Result.verdictOnly (.discarded .outOfSequence)) (s.setTable (s.table.erase id))

/-- ACCEPT of a frame whose identifier has no reassembly in progress: the single-frame path (R87), then R88, R89 and the
orphans of R90. -/
def acceptIdle (id : CanId) (s : State) : Outcome :=
  if isFastPacket s.bind.model (decodeCanId id).pgn then
    if s.inp.dp.length < maxDlc then complete (Result.verdictOnly (.discarded .shortFrame)) s
    else if counterOf s.inp.dp = 0 then acceptFirst id s
    else complete (Result.verdictOnly (.discarded .orphan)) s
  else complete (Result.completed (messageOf id s.inp.dp)) s

/-- ACCEPT of a frame whose identifier has entry `e`: never the single-frame path (R87); R88, R89, R90. -/
def acceptBusy (id : CanId) (e : Entry) (s : State) : Outcome :=
  if s.inp.dp.length < maxDlc then
    complete (Result.verdictOnly (.discarded .shortFrame)) (s.setTable (s.table.erase id))
  else if counterOf s.inp.dp = 0 then acceptFirst id s
  else acceptNext id e (counterOf s.inp.dp) s

/-- ACCEPT (R86): the pseudocode's two tests of `T[ID] = none` are made once, in front. -/
def execAccept (id : CanId) (s : State) : Outcome :=
  onRxPort s <| withFrameDp s <|
    match s.table.get id with
    | none => acceptIdle id s
    | some e => acceptBusy id e s

/-! ## FP_FLUSH (R95) -/

/-- FP_FLUSH (R95): `T[id] <- none` for every identifier. -/
def execFpFlush (s : State) : Outcome :=
  onRxPort s <| withEmptyDp s <| complete Result.ok (s.setTable [])

end Sys2Proof.Machine
end

