-- ==== Sys2Proof/Machine/GroupFunction.lean ====
section
/-! DEFINITION. The Group Function builder: BUILD_REQUEST and BUILD_COMMAND (spec/42_group_function.md; payloads and envelope in
30_encoding.md R70 to R72). -/

namespace Sys2Proof.Machine

/-- The two identification pairs of both messages, always first (R103). -/
def identificationPairs : List Byte := [0x01] ++ le16 mfrCode ++ [0x03] ++ [industryCode]

/-- The request payload, 16 bytes (R70). -/
def requestPayload (cpgn : Pgn) : List Byte :=
  [0x00] ++ le24 (cpgn.setWidth 24) ++ List.replicate 4 0xFF ++ List.replicate 2 0xFF ++ [0x02] ++ identificationPairs

/-- The low `w` bits of a raw value, those above dropped (R99). -/
def lowBits (raw : BitVec 64) (w : Nat) : BitVec 64 := raw &&& ~~~(BitVec.allOnes 64 <<< w)

/-- `packLE(raw, w)`: `ceil(w / 8)` bytes, least significant first, every bit from w up 1 (R102). -/
def packLE (raw : BitVec 64) (w : Nat) : List Byte :=
  (List.range ((w + 7) / 8)).map fun j => byteAt (raw ||| BitVec.allOnes 64 <<< w) j

/-- R100: the descriptor of the commanded field, or SchemaResolutionError. -/
def resolveField (m : FieldModel) (cpgn : Pgn) (fidx : BitVec 8) : Except Status FieldDesc :=
  if fidx = 255 then .error .schemaResolutionError
  else
    match fieldSchema m cpgn fidx with
    | none => .error .schemaResolutionError
    | some fd => if fd.width < 1 ∨ fd.width > 64 then .error .schemaResolutionError else .ok fd

/-- The command payload (R71) for a field of width `w` that holds `raw`. -/
def commandPayload (prio : Byte) (cpgn : Pgn) (fidx : BitVec 8) (raw : BitVec 64) (w : Nat) : List Byte :=
  [0x01] ++ le24 (cpgn.setWidth 24) ++ [prio] ++ [0x03] ++ identificationPairs ++ [fidx + 1] ++ packLE raw w

/-- The envelope of both messages (R72). -/
def groupFunctionMessage (b : Binding) (src dst : Addr) (payload : List Byte) : PgnMessage where
  pri := gfPriority
  pgn := b.gfPgn
  src := src
  dst := dst
  payload := payload

/-- BUILD_REQUEST (R97, R98). -/
def execBuildRequest (cpgn : Pgn) (s : State) : Outcome :=
  withEmptyDp s <|
    match s.localAddr with
    | none => raise .configNotSet s
    | some a =>
      complete { Result.ok with msg := some (groupFunctionMessage s.bind a broadcast (requestPayload cpgn)) } s

/-- BUILD_COMMAND (R99 to R101). -/
def execBuildCommand (cpgn : Pgn) (dst : Addr) (fidx : BitVec 8) (s : State) : Outcome :=
  withEmptyDp s <|
    match s.localAddr with
    | none => raise .configNotSet s
    | some a =>
      match resolveField s.bind.model cpgn fidx with
      | .error st => raise st s
      | .ok fd =>
        let raw := lowBits (quantize s.bind.model fd s.inp.vp) fd.width
        let payload := commandPayload s.bind.cmdPrioByte cpgn fidx raw fd.width
        complete { Result.ok with msg := some (groupFunctionMessage s.bind a dst payload) } s

end Sys2Proof.Machine
end

