-- ==== Sys2Proof/Machine/Dispatch.lean ====
section
/-! DEFINITION. One arm for each command (spec/30_encoding.md R56). -/

namespace Sys2Proof.Machine

def exec (i : Instr) (s : State) : Host.Outcome State Fault Refusal :=
  match i with
  | .nop => Sys2Proof.Machine.execNop s
  | .encodeId pri pgn src dst => Sys2Proof.Machine.execEncodeId pri pgn src dst s
  | .decodeId id => Sys2Proof.Machine.execDecodeId id s
  | .segment pri pgn src dst => Sys2Proof.Machine.execSegment pri pgn src dst s
  | .accept id => Sys2Proof.Machine.execAccept id s
  | .fpFlush => Sys2Proof.Machine.execFpFlush s
  | .buildRequest cpgn => Sys2Proof.Machine.execBuildRequest cpgn s
  | .buildCommand cpgn dst fidx => Sys2Proof.Machine.execBuildCommand cpgn dst fidx s
  | .formatLine id => Sys2Proof.Machine.execFormatLine id s
  | .parseLine => Sys2Proof.Machine.execParseLine s
  | .cfgRead reg => Sys2Proof.Machine.execCfgRead reg s
  | .cfgWrite reg value => Sys2Proof.Machine.execCfgWrite reg value s

end Sys2Proof.Machine
end

