-- ==== Sys2Proof/Machine/Step.lean ====
section
/-! DEFINITION. One step: a reset event, or one command of one port (spec/10_state.md R18, R32; 20_memory.md R44, R47;
70_reset_and_hazards.md R127). -/

namespace Sys2Proof.Machine

/-- One command of port `p`. A word that selects no row raises IllegalOperation (R59, R115); with nothing waiting on the
port there is no command and the state stays as it is (R126). -/
def stepOn (p : Port) (s : State) : Host.Outcome State Fault Refusal :=
  match s.fetch p with
  | none => .next s
  | some (cw, s') =>
    match decode cw with
    | .ok i => exec i s'
    | .error _ => raise .illegalOperation s'

/-- One step. Reset takes effect between commands (R127); with no command on either port the block holds its state (R126). -/
def step (s : State) : Host.Outcome State Fault Refusal :=
  match s.resetIn with
  | some b => .next (s.takeReset b)
  | none =>
    match s.nextPort with
    | none => .next s
    | some p => stepOn p s

/-- The command whose word has the low `nbits` bits of `w` is issued first, on RX, where every opcode is valid (R121), with
an empty DP; no reset is pending and TX has no command, so that the next step takes it (log entry 5). -/
def State.withFetchWord (s : State) (nbits w : Nat) : State :=
  { s with resetIn := none, tx := [], rx := ⟨tableWord nbits w, [], ⟨0, 0⟩⟩ :: s.rx }

end Sys2Proof.Machine
end

