-- ==== Sys2Proof/Machine/Pseudo.lean ====
section
/-! DEFINITION. The pseudo-instructions of spec/30_encoding.md R62: short programs an agent issues, not commands of the block. -/

namespace Sys2Proof.Machine

/-- `SET_ADDR a` is `CFG_WRITE 0x00, a` (R62). R62 gives the operand no range: DESIGN CHOICE (log entry 12), it has that of
CFG_WRITE's VALUE, 32 bits, so that `SET_ADDR 0x100` can be presented and raises what CFG_WRITE raises. -/
def setAddr (a : BitVec 32) : Instr := .cfgWrite 0x00 a

/-- The last result given, if any. -/
def State.lastResult (s : State) : Option Result := s.answers.getLast?.map (·.result)

/-- `SEGMENT m.pri, m.pgn, m.src, m.dst, [m.payload]` on port `p`. -/
def segmentMessage (p : Port) (m : PgnMessage) (s : State) : Outcome :=
  exec (.segment m.pri m.pgn m.src m.dst) { s with inp := ⟨p, m.payload, ⟨0, 0⟩⟩ }

/-- SEGMENT of the message that a BUILD command has just answered on port `p`; only if it returned OK (R62). -/
def thenSegment (p : Port) (built : Outcome) : Outcome :=
  match built with
  | .next t =>
    match t.lastResult with
    | none => .next t
    | some r =>
      match r.msg with
      | none => .next t
      | some m => if r.status = Status.code .ok then segmentMessage p m t else .next t
  | .fault f => .fault f
  | .refused r => .refused r

/-- `SEND_REQUEST cpgn`, issued on the port of `s.inp`. -/
def sendRequest (cpgn : Pgn) (s : State) : Outcome :=
  thenSegment s.inp.port (exec (.buildRequest cpgn) s)

/-- `SEND_COMMAND cpgn, dst, fidx, value`, the value on VP, issued on the port of `s.inp`. -/
def sendCommand (cpgn : Pgn) (dst : Addr) (fidx : BitVec 8) (s : State) : Outcome :=
  thenSegment s.inp.port (exec (.buildCommand cpgn dst fidx) s)

end Sys2Proof.Machine
end

