-- ==== Sys2Proof/Safety.lean ====
section
/-! DEFINITION. What counts as a good state and a run, in the terms the statements use. -/

namespace Sys2Proof.Machine

/-- R27: what ACCEPT keeps true of every stored entry. -/
def Entry.Ok (e : Entry) : Prop :=
  e.buf.length = e.acc ∧ e.acc = 6 + 7 * e.last ∧ e.acc < e.total ∧ e.total ≤ 223

/-- R27 and R28 of the whole table: canonical, every entry as R27 says, and no more entries than NUM_FP_SLOTS. -/
def State.TableOk (s : State) : Prop :=
  s.table.wf = true ∧ (∀ p ∈ s.table, p.2.Ok) ∧ ∀ n, s.bind.numFpSlots = some n → s.table.count ≤ n

/-- A result obeys R20, R111 and R112, and every frame it carries has 0 to 8 data bytes (R65). -/
def Result.Ok (r : Result) : Prop := r.wf = true ∧ ∀ f ∈ r.frames, f.data.length ≤ 8

/-- Every result given so far is as R20 and R65 say. -/
def State.AnswersOk (s : State) : Prop := ∀ a ∈ s.answers, a.result.Ok

/-- Between commands the ports hold nothing (R17). -/
def State.PortsIdle (s : State) : Prop := s.inp = Input.idle

/-- The invariant of the machine between steps. -/
structure State.Inv (s : State) : Prop where
  table : s.TableOk
  answers : s.AnswersOk
  idle : s.PortsIdle

/-- Commands of the named ports, one after another, stopping at a stop: one interleaving of the two ports (R47). -/
def runPorts : List Port → State → Host.Outcome State Fault Refusal
  | [], s => .next s
  | p :: ps, s =>
    match stepOn p s with
    | .next t => runPorts ps t
    | .fault f => .fault f
    | .refused r => .refused r

/-- The state that executes a command issued on `p` with data `dp` and VP 0. -/
def State.withInput (s : State) (p : Port) (dp : List Byte) : State := { s with inp := ⟨p, dp, ⟨0, 0⟩⟩ }

/-- ACCEPT of each frame in order on the RX port (R133). -/
def acceptAll : List Frame → State → Host.Outcome State Fault Refusal
  | [], s => .next s
  | f :: fs, s =>
    match exec (.accept f.id) (s.withInput .rx f.data) with
    | .next t => acceptAll fs t
    | .fault x => .fault x
    | .refused r => .refused r

/-- The verdicts given on the RX port, with the messages that go with them, oldest first (R22, R48). -/
def State.rxVerdicts (s : State) : List (Option Verdict × Option PgnMessage) :=
  (s.answers.filter fun a => a.port == .rx && a.result.verdict.isSome).map fun a => (a.result.verdict, a.result.msg)

/-- The ASCII byte of an upper-case hexadecimal digit (R76). -/
def upperHex (d : Nat) : Byte := if d < 10 then BitVec.ofNat 8 (0x30 + d) else BitVec.ofNat 8 (0x37 + d)

/-- Byte `b` is an ASCII hexadecimal digit of either case, of value `d`: H of R106's grammar. -/
def IsHex (b : Byte) (d : Nat) : Prop :=
  (0x30 ≤ b.toNat ∧ b.toNat ≤ 0x39 ∧ b.toNat = 0x30 + d) ∨ (0x41 ≤ b.toNat ∧ b.toNat ≤ 0x46 ∧ b.toNat = 0x37 + d) ∨
    (0x61 ≤ b.toNat ∧ b.toNat ≤ 0x66 ∧ b.toNat = 0x57 + d)

/-- Two ASCII digits write a byte. -/
def IsHexPair (p : Byte × Byte) (b : Byte) : Prop :=
  ∃ h l, IsHex p.1 h ∧ IsHex p.2 l ∧ b.toNat = 16 * h + l

/-- `text` is a line of R106's grammar whose identifier is `id` (so below 2^29) and whose data bytes are `bytes`. -/
def IsLine (text : List Byte) (id : CanId) (bytes : List Byte) : Prop :=
  ∃ (digits : List Byte) (values : List Nat) (pairs : List (Byte × Byte)),
    text = digits ++ pairs.flatMap (fun p => [0x20, p.1, p.2]) ++ [0x0D, 0x0A] ∧
    digits.length = 8 ∧ List.Forall₂ IsHex digits values ∧ values.foldl (fun v d => 16 * v + d) 0 = id.toNat ∧
    bytes.length ≤ 8 ∧ List.Forall₂ IsHexPair pairs bytes

/-- The headers of R80 and R81: a PDU1 PGN has low byte 0, and a PDU2 PGN goes to the broadcast address. -/
def Header.Encodable (h : Header) : Prop :=
  if (h.pgn.extractLsb' 8 8).toNat < 240 then h.pgn.extractLsb' 0 8 = 0 else h.dst = 0xFF

/-- The bytes of a commanded PGN in a Group Function payload: 24 bits, least significant byte first (R39, R98). -/
def pgnBytes (g : Pgn) : List Byte := [g.extractLsb' 0 8, g.extractLsb' 8 8, (g.extractLsb' 16 1).setWidth 8]

end Sys2Proof.Machine
end

