-- ==== Sys2Proof/Certificates/Slice0/Obligations.lean ====
section
/-! DEFINITION. The statements for the provers. A statement's docstring says which rules of spec/ it formalises. -/

open Sys2Proof Sys2Proof.Machine

/-! ## The command word -/

/-- R55, R57: no bit of an operand is lost between the encoder and the decoder. -/
def Obligations.DecodeOfEncode : Prop := ∀ i : Instr, decode (encode i) = .ok i

/-- R54, R55: a word the decoder accepts has every reserved bit 0, so it is the encoder's word of what was read. -/
def Obligations.EncodeOfDecode : Prop := ∀ (cw : CommandWord) (i : Instr), decode cw = .ok i → encode i = cw

/-- R56: a word selects a row exactly when `CW & mask = match`, and a word that selects none is rejected. -/
def Obligations.DecodeSelectsMatchingRow : Prop :=
  ∀ cw : CommandWord,
    (∀ row ∈ opcodeRows, cw &&& row.mask = row.value → decode cw = .ok (row.read cw)) ∧
    ((∀ row ∈ opcodeRows, cw &&& row.mask ≠ row.value) → ∃ e, decode cw = .error e)

/-- One word of each format, written out from R55 and R56. -/
def Obligations.WrittenOutWordsDecode : Prop :=
  decode 0x0000000000000012 = .ok .fpFlush ∧
  decode 0x00550101F0100601 = .ok (.encodeId 6 0x1F010 0x01 0x55) ∧
  decode 0x00000009EDFF4211 = .ok (.accept 0x09EDFF42) ∧
  decode 0x0000000001FF5420 = .ok (.buildRequest 130900) ∧
  decode 0x0000FE0501FF5421 = .ok (.buildCommand 130900 0x05 254) ∧
  decode 0x0000000000000740 = .ok (.cfgRead 7) ∧
  decode 0x0000000000420041 = .ok (.cfgWrite 0 0x42)

/-! ## Steps -/

/-- R18, R19, R32: a step takes the next command of the port it serves and runs what its word decodes to, with that
command's port, DP and VP; the commands behind it wait, the model's own count of commands taken (log entry 3) grows by 1,
and nothing else has changed before it runs. -/
def Obligations.StepRunsDecodedCommand : Prop :=
  ∀ (s : State) (p : Port) (c : Command) (rest : List Command) (i : Instr),
    s.resetIn = none → s.nextPort = some p → s.waiting p = c :: rest → decode c.cw = .ok i →
    ∃ s' : State, step s = exec i s' ∧
      s'.inp = ⟨p, c.dp, c.vp⟩ ∧ s'.waiting p = rest ∧ (∀ q, q ≠ p → s'.waiting q = s.waiting q) ∧
      s'.localAddr = s.localAddr ∧ s'.table = s.table ∧ s'.bind = s.bind ∧ s'.answers = s.answers ∧ s'.resetIn = none ∧
      s'.taken = s.taken + 1

/-- R59, R115: a word that matches no row raises IllegalOperation and changes nothing: LOCAL_ADDR, T and the parameters
stay, and the answer fills STATUS alone. -/
def Obligations.UnmatchedWordIsIllegal : Prop :=
  ∀ (s : State) (p : Port) (c : Command) (rest : List Command),
    s.resetIn = none → s.nextPort = some p → s.waiting p = c :: rest →
    (∀ row ∈ opcodeRows, c.cw &&& row.mask ≠ row.value) →
    ∃ t : State, step s = .next t ∧ t.localAddr = s.localAddr ∧ t.table = s.table ∧ t.bind = s.bind ∧
      t.waiting p = rest ∧ (∀ q, q ≠ p → t.waiting q = s.waiting q) ∧ t.inp = Input.idle ∧
      t.answers = s.answers ++ [⟨p, { status := 0x05 }⟩]

/-- R58, R59, R121: on the wrong port, or with DP of a length the opcode does not take, every command raises
IllegalOperation and does nothing else. -/
def Obligations.IllFormedCommandIsIllegal : Prop :=
  ∀ (i : Instr) (s : State), i.wellFormedOn s.inp.port s.inp.dp.length = false →
    exec i s = .next (s.respond { status := 0x05 })

/-- R16, R126: with no command on either port the block holds its state. -/
def Obligations.HoldsStateBetweenCommands : Prop :=
  ∀ s : State, s.resetIn = none → s.tx = [] → s.rx = [] → step s = .next s

/-- R47: the commands take effect one at a time, and each port's in its issue order: a step with a command waiting removes
exactly the first command of one port and gives exactly one answer, on that port. -/
def Obligations.OneCommandInPortOrder : Prop :=
  ∀ s t : State, s.resetIn = none → step s = .next t →
    (s.tx = [] ∧ s.rx = [] ∧ t = s) ∨
    ∃ p c r, s.waiting p = c :: t.waiting p ∧ (∀ q, q ≠ p → t.waiting q = s.waiting q) ∧
      t.answers = s.answers ++ [⟨p, r⟩]

/-- R128: a reset leaves LOCAL_ADDR UNSET and T empty, every constant and parameter in its register, and the ports holding
nothing; the parameters are those bound for the run that starts. -/
def Obligations.ResetEventState : Prop :=
  ∀ (s : State) (b : Binding), s.resetIn = some b →
    ∃ t : State, step s = .next t ∧ t.localAddr = none ∧ (∀ id, t.table.get id = none) ∧ t.readCfg .fpActive = some 0 ∧
      t.readCfg .mfrCode = some 2020 ∧ t.readCfg .industryCode = some 4 ∧ t.readCfg .gfPriority = some 2 ∧
      t.bind = b ∧ t.readCfg .gfPgn = some (b.gfPgn.setWidth 32) ∧
      t.readCfg .cmdPrioByte = some (b.cmdPrioByte.setWidth 32) ∧
      (b.numFpSlots = none → t.readCfg .fpSlots = some 0) ∧
      (∀ n < 2 ^ 32, b.numFpSlots = some n → t.readCfg .fpSlots = some (BitVec.ofNat 32 n)) ∧
      t.inp = Input.idle

/-- The model's choice (log entry 7): across a reset event (R127) the commands the agents have still to issue and the
answers already given stay, and the reset input is released. -/
def Obligations.ResetKeepsHostQueues : Prop :=
  ∀ (s t : State) (b : Binding), s.resetIn = some b → step s = .next t →
    t.tx = s.tx ∧ t.rx = s.rx ∧ t.answers = s.answers ∧ t.resetIn = none

/-- R128, R8: the state right after power-up: LOCAL_ADDR UNSET, no reassembly in progress, the constants in their registers,
the parameters' defaults (log entry 6), and no result. -/
def Obligations.StateAfterReset : Prop :=
  State.reset.localAddr = none ∧ (∀ id, State.reset.table.get id = none) ∧
  State.reset.readCfg .fpActive = some 0 ∧ State.reset.readCfg .mfrCode = some 2020 ∧
  State.reset.readCfg .industryCode = some 4 ∧ State.reset.readCfg .gfPriority = some 2 ∧
  State.reset.readCfg .gfPgn = some 0x0001ED00 ∧ State.reset.readCfg .cmdPrioByte = some 0xF8 ∧
  State.reset.readCfg .fpSlots = some 0 ∧ State.reset.answers = []

/-- R129: the parameters and external functions stay fixed until the next reset: only the reset event changes them. -/
def Obligations.ParametersFixedBetweenResets : Prop :=
  ∀ s t : State, step s = .next t → t.bind = s.resetIn.getD s.bind

/-- R24, R109: LOCAL_ADDR changes only by a CFG_WRITE of register 0 or by reset, and never back to UNSET but by reset. -/
def Obligations.LocalAddrChangesOnlyByWrite : Prop :=
  ∀ s t : State, s.resetIn = none → step s = .next t → t.localAddr ≠ s.localAddr →
    ∃ p c v, s.nextPort = some p ∧ (s.waiting p).head? = some c ∧ decode c.cw = .ok (.cfgWrite 0 v) ∧ v.toNat < 256 ∧
      t.localAddr = some (v.extractLsb' 0 8)

/-- R48: the table, and every ACCEPT verdict and message, depend only on the order of the commands of the RX port and on the
parameters: from any second state with the same table, parameters and RX commands, whatever its TX commands and LOCAL_ADDR,
the RX commands alone leave the same table and give the same verdicts as an interleaving of both ports. -/
def Obligations.RxVerdictsIgnoreTx : Prop :=
  ∀ (schedule : List Port) (s s' t : State), runPorts schedule s = .next t →
    s'.table = s.table → s'.bind = s.bind → s'.rx = s.rx →
    ∃ (u : State) (given : List (Option Verdict × Option PgnMessage)),
      runPorts (schedule.filter (· == .rx)) s' = .next u ∧ u.table = t.table ∧ u.rx = t.rx ∧
      t.rxVerdicts = s.rxVerdicts ++ given ∧ u.rxVerdicts = s'.rxVerdicts ++ given

/-! ## Invariants -/

/-- R27, R28, R20, R111, R112, R65, R17 together: every step keeps the table canonical and within its slots, every entry as
R27 says, every answer well formed, and the ports empty between commands. -/
def Obligations.StepKeepsInvariant : Prop := ∀ s t : State, s.Inv → step s = .next t → t.Inv

/-- The invariant holds right after reset. -/
def Obligations.ResetMeetsInvariant : Prop := State.reset.Inv

/-- R37, R93, R138: in a state whose table is as R27 says, every step ends with a next state: no MemWrite ever lacks room,
and no command or word stops the block. -/
def Obligations.StepNeverStops : Prop := ∀ s : State, s.TableOk → ∃ t, step s = .next t

/-- R25: FP_ACTIVE reads the number of identifiers that have an entry. -/
def Obligations.FpActiveCountsIdentifiers : Prop :=
  ∀ s : State, s.table.wf = true →
    ∃ ids : List CanId, ids.Nodup ∧ (∀ id, id ∈ ids ↔ s.table.get id ≠ none) ∧
      s.readCfg .fpActive = some (BitVec.ofNat 32 ids.length)

/-! ## Every command -/

/-- R32, R45, R29: what a command leaves unchanged. Commands other than ACCEPT and FP_FLUSH leave T, and so every byte of
every buffer; commands other than CFG_WRITE of register 0 leave LOCAL_ADDR; none touches the parameters, the reset input or
a waiting command; each gives one answer on its port, which then holds nothing. -/
def Obligations.CommandFrame : Prop :=
  ∀ (i : Instr) (s t : State), exec i s = .next t →
    t.bind = s.bind ∧ t.tx = s.tx ∧ t.rx = s.rx ∧ t.taken = s.taken ∧ t.resetIn = s.resetIn ∧ t.inp = Input.idle ∧
    (∃ r, t.answers = s.answers ++ [⟨s.inp.port, r⟩]) ∧
    ((∀ id, i ≠ .accept id) → i ≠ .fpFlush →
      t.table = s.table ∧ ∀ id off, t.table.readByte id off = s.table.readByte id off) ∧
    ((∀ v, i ≠ .cfgWrite 0 v) → t.localAddr = s.localAddr)

/-- R112: a command whose STATUS is not OK writes no state, emits no frame and fills no field but STATUS. -/
def Obligations.RaiseHasNoOtherEffect : Prop :=
  ∀ (i : Instr) (s t : State) (r : Result), exec i s = .next t → t.lastResult = some r → r.status ≠ 0x00 →
    t = s.respond { status := r.status }

/-- R111, R22: the codes of the eight statuses, and of the five reasons of a Discarded verdict. -/
def Obligations.StatusCodes : Prop :=
  Status.code .ok = 0x00 ∧ Status.code .invalidAddressing = 0x01 ∧ Status.code .schemaResolutionError = 0x02 ∧
  Status.code .payloadTooLong = 0x03 ∧ Status.code .configNotSet = 0x04 ∧ Status.code .illegalOperation = 0x05 ∧
  Status.code .readOnlyRegister = 0x06 ∧ Status.code .malformedLine = 0x07 ∧
  DiscardReason.code .orphan = 1 ∧ DiscardReason.code .outOfSequence = 2 ∧ DiscardReason.code .shortFrame = 3 ∧
  DiscardReason.code .badLength = 4 ∧ DiscardReason.code .noSlot = 5

/-- R110: NOP gives STATUS OK and nothing else. -/
def Obligations.NopCompletes : Prop :=
  ∀ s : State, s.inp.dp = [] → exec .nop s = .next (s.respond { status := 0x00 })

/-! ## The address codec -/

/-- R77: ENCODE_ID gives the identifier field by field; a PDU1 PGN with a non-zero low byte raises InvalidAddressing. -/
def Obligations.EncodeIdBuildsFields : Prop :=
  ∀ (p : Pri) (g : Pgn) (a d : Addr) (s : State), s.inp.dp = [] →
    if (g.extractLsb' 8 8).toNat < 240 ∧ g.extractLsb' 0 8 ≠ 0 then
      exec (.encodeId p g a d) s = .next (s.respond { status := 0x01 })
    else
      ∃ id : CanId, exec (.encodeId p g a d) s = .next (s.respond { status := 0x00, id := some id }) ∧
        id.extractLsb' 26 3 = p ∧ id.getLsbD 25 = false ∧ id.getLsbD 24 = g.getLsbD 16 ∧
        id.extractLsb' 16 8 = g.extractLsb' 8 8 ∧
        id.extractLsb' 8 8 = (if (g.extractLsb' 8 8).toNat < 240 then d else g.extractLsb' 0 8) ∧
        id.extractLsb' 0 8 = a

/-- R78: DECODE_ID splits every identifier, bit 25 read by nothing. -/
def Obligations.DecodeIdSplitsFields : Prop :=
  ∀ (id : CanId) (s : State), s.inp.dp = [] →
    ∃ h : Header, exec (.decodeId id) s = .next (s.respond { status := 0x00, hdr := some h }) ∧
      h.pri = id.extractLsb' 26 3 ∧ h.src = id.extractLsb' 0 8 ∧ h.pgn.getLsbD 16 = id.getLsbD 24 ∧
      h.pgn.extractLsb' 8 8 = id.extractLsb' 16 8 ∧
      if (id.extractLsb' 16 8).toNat < 240 then h.dst = id.extractLsb' 8 8 ∧ h.pgn.extractLsb' 0 8 = 0
      else h.dst = 0xFF ∧ h.pgn.extractLsb' 0 8 = id.extractLsb' 8 8

/-- R80: the PDU1 round trip. -/
def Obligations.Pdu1RoundTrip : Prop :=
  ∀ (p : Pri) (g : Pgn) (a d : Addr), (g.extractLsb' 8 8).toNat < 240 → g.extractLsb' 0 8 = 0 →
    ∃ id, encodeCanId p g a d = .ok id ∧ decodeCanId id = ⟨p, g, a, d⟩

/-- R81: the PDU2 round trip, whatever destination is given. -/
def Obligations.Pdu2RoundTrip : Prop :=
  ∀ (p : Pri) (g : Pgn) (a d : Addr), 240 ≤ (g.extractLsb' 8 8).toNat →
    ∃ id, encodeCanId p g a d = .ok id ∧ decodeCanId id = ⟨p, g, a, 0xFF⟩

/-- R82: encoding a decoded identifier succeeds and gives it back with bit 25 cleared; so Encode and Decode are inverse
bijections between the identifiers with bit 25 clear and the headers of R80 and R81. -/
def Obligations.ReverseRoundTrip : Prop :=
  (∀ id : CanId, encodeCanId (decodeCanId id).pri (decodeCanId id).pgn (decodeCanId id).src (decodeCanId id).dst
    = .ok (id &&& ~~~(1#29 <<< 25))) ∧
  (∀ id : CanId, id.getLsbD 25 = false → (decodeCanId id).Encodable ∧
    encodeCanId (decodeCanId id).pri (decodeCanId id).pgn (decodeCanId id).src (decodeCanId id).dst = .ok id) ∧
  ∀ h : Header, h.Encodable →
    ∃ id : CanId, encodeCanId h.pri h.pgn h.src h.dst = .ok id ∧ id.getLsbD 25 = false ∧ decodeCanId id = h

/-- R83: Encode writes 0 in bit 25, Decode reads nothing there, and identifiers that differ only there are different keys
of the reassembly table. -/
def Obligations.Bit25IsIgnoredButKeyed : Prop :=
  (∀ p g a d id, encodeCanId p g a d = .ok id → id.getLsbD 25 = false) ∧
  (∀ id : CanId, decodeCanId (id ^^^ (1#29 <<< 25)) = decodeCanId id) ∧
  ∀ (id : CanId) (s t : State), exec (.accept (id ^^^ (1#29 <<< 25))) s = .next t → t.table.get id = s.table.get id

/-! ## SEGMENT -/

/-- R84, R115: more than 223 bytes raises PayloadTooLong, checked before InvalidAddressing; neither emits a frame. -/
def Obligations.SegmentRaises : Prop :=
  ∀ (p : Pri) (g : Pgn) (a d : Addr) (s : State),
    (223 < s.inp.dp.length → exec (.segment p g a d) s = .next (s.respond { status := 0x03 })) ∧
    (s.inp.dp.length ≤ 223 → (g.extractLsb' 8 8).toNat < 240 → g.extractLsb' 0 8 ≠ 0 →
      exec (.segment p g a d) s = .next (s.respond { status := 0x01 }))

/-- R66, R84: a payload of at most 8 bytes is one frame, verbatim. -/
def Obligations.SegmentSingleFrame : Prop :=
  ∀ (p : Pri) (g : Pgn) (a d : Addr) (id : CanId) (s : State), encodeCanId p g a d = .ok id → s.inp.dp.length ≤ 8 →
    exec (.segment p g a d) s = .next (s.respond { status := 0x00, frames := [⟨id, s.inp.dp⟩] })

/-- R67 to R69, R84, R85: a payload of 9 to 223 bytes is `ceil((n + 1) / 7)` frames of 8 bytes, all of one identifier;
frame i's header byte is 0x40 + i, and the other bytes in order are the length, the payload and 0xFF filler. -/
def Obligations.SegmentFastPacketFrames : Prop :=
  ∀ (p : Pri) (g : Pgn) (a d : Addr) (id : CanId) (s : State), encodeCanId p g a d = .ok id →
    9 ≤ s.inp.dp.length → s.inp.dp.length ≤ 223 →
    ∃ frames : List Frame, exec (.segment p g a d) s = .next (s.respond { status := 0x00, frames := frames }) ∧
      frames.length = (s.inp.dp.length + 7) / 7 ∧ 2 ≤ frames.length ∧ frames.length ≤ 32 ∧
      (∀ f ∈ frames, f.id = id ∧ f.data.length = 8) ∧
      (frames.map fun f => f.data.head?) = (List.range frames.length).map (fun i => some (BitVec.ofNat 8 (0x40 + i))) ∧
      ∃ pad ≤ 6, (frames.flatMap fun f => f.data.drop 1) =
        BitVec.ofNat 8 s.inp.dp.length :: s.inp.dp ++ List.replicate pad 0xFF

/-! ## ACCEPT -/

/-- R87: a frame of a PGN that is not Fast Packet, with no reassembly in progress, completes at once, verbatim; T stays. -/
def Obligations.AcceptSingleFrame : Prop :=
  ∀ (id : CanId) (s : State), s.inp.port = .rx → s.inp.dp.length ≤ 8 → s.table.get id = none →
    isFastPacket s.bind.model (decodeCanId id).pgn = false →
    exec (.accept id) s = .next (s.respond
      { status := 0x00, verdict := some .completed, msg := some { toHeader := decodeCanId id, payload := s.inp.dp } })

/-- R88: on the Fast Packet path a frame of fewer than 8 bytes is a ShortFrame, whatever its counter, and the entry of its
identifier is deleted. -/
def Obligations.AcceptShortFrame : Prop :=
  ∀ (id : CanId) (s : State), s.inp.port = .rx → s.inp.dp.length < 8 →
    (isFastPacket s.bind.model (decodeCanId id).pgn = true ∨ s.table.get id ≠ none) →
    exec (.accept id) s = .next ((s.setTable (s.table.erase id)).respond
      { status := 0x00, verdict := some (.discarded .shortFrame) })

/-- R89, R86: a frame 0 drops any entry of its identifier; then a length above 223 is BadLength, one of 6 or less completes
at once, and any other starts an entry where a slot is free for it, and is NoSlot where none is. -/
def Obligations.AcceptFrameZero : Prop :=
  ∀ (id : CanId) (h len b2 b3 b4 b5 b6 b7 : Byte) (s : State), s.inp.port = .rx →
    s.inp.dp = [h, len, b2, b3, b4, b5, b6, b7] → h.toNat % 32 = 0 →
    (isFastPacket s.bind.model (decodeCanId id).pgn = true ∨ s.table.get id ≠ none) →
    exec (.accept id) s =
      if 223 < len.toNat then
        .next ((s.setTable (s.table.erase id)).respond { status := 0x00, verdict := some (.discarded .badLength) })
      else if len.toNat ≤ 6 then
        .next ((s.setTable (s.table.erase id)).respond
          { status := 0x00, verdict := some .completed,
            msg := some { toHeader := decodeCanId id, payload := [b2, b3, b4, b5, b6, b7].take len.toNat } })
      else if ∀ n, s.bind.numFpSlots = some n → (s.table.erase id).count < n then
        .next ((s.setTable (s.table.set id ⟨len.toNat, 6, 0, [b2, b3, b4, b5, b6, b7]⟩)).respond
          { status := 0x00, verdict := some .inProgress })
      else
        .next ((s.setTable (s.table.erase id)).respond { status := 0x00, verdict := some (.discarded .noSlot) })

/-- R90, R36: a continuation frame with the next counter is appended at the end of the buffer: while bytes are missing the
entry grows by 7, and every byte of the space but those seven reads as before. -/
def Obligations.AcceptAppendsContinuation : Prop :=
  ∀ (id : CanId) (e : Entry) (h : Byte) (data : List Byte) (s : State), s.inp.port = .rx → s.inp.dp = h :: data →
    data.length = 7 → s.table.get id = some e → e.Ok → h.toNat % 32 = e.last + 1 → e.acc + 7 < e.total →
    ∃ t : State, exec (.accept id) s = .next t ∧
      t = (s.setTable t.table).respond { status := 0x00, verdict := some .inProgress } ∧
      t.table.get id = some ⟨e.total, e.acc + 7, e.last + 1, e.buf ++ data⟩ ∧
      (∀ k off, ¬(k = id ∧ e.acc ≤ off ∧ off < e.acc + 7) → t.table.readByte k off = s.table.readByte k off) ∧
      ∀ j < 7, t.table.readByte id (e.acc + j) = data[j]?

/-- R91: the frame that reaches the declared length completes the message with the first `total` bytes, and the entry is
deleted; the bytes trimmed are not checked. -/
def Obligations.AcceptCompletesMessage : Prop :=
  ∀ (id : CanId) (e : Entry) (h : Byte) (data : List Byte) (s : State), s.inp.port = .rx → s.inp.dp = h :: data →
    data.length = 7 → s.table.get id = some e → e.Ok → h.toNat % 32 = e.last + 1 → e.total ≤ e.acc + 7 →
    exec (.accept id) s = .next ((s.setTable (s.table.erase id)).respond
      { status := 0x00, verdict := some .completed,
        msg := some { toHeader := decodeCanId id, payload := (e.buf ++ data).take e.total } })

/-- R90: with no entry, a continuation frame of a Fast Packet PGN is an orphan, and T stays. -/
def Obligations.AcceptDiscardsOrphan : Prop :=
  ∀ (id : CanId) (h : Byte) (data : List Byte) (s : State), s.inp.port = .rx → s.inp.dp = h :: data → data.length = 7 →
    s.table.get id = none → isFastPacket s.bind.model (decodeCanId id).pgn = true → h.toNat % 32 ≠ 0 →
    exec (.accept id) s = .next (s.respond { status := 0x00, verdict := some (.discarded .orphan) })

/-- R90: a counter that is neither 0 nor the next one is OutOfSequence, and the entry is deleted. -/
def Obligations.AcceptDiscardsOutOfSequence : Prop :=
  ∀ (id : CanId) (e : Entry) (h : Byte) (data : List Byte) (s : State), s.inp.port = .rx → s.inp.dp = h :: data →
    data.length = 7 → s.table.get id = some e → h.toNat % 32 ≠ 0 → h.toNat % 32 ≠ e.last + 1 →
    exec (.accept id) s = .next ((s.setTable (s.table.erase id)).respond
      { status := 0x00, verdict := some (.discarded .outOfSequence) })

/-- R93: in every state whose table is as R27 says, ACCEPT on RX of 0 to 8 bytes ends with STATUS OK and a verdict, MSG is
filled exactly when it is Completed, an orphan frame completes nothing, and T is again as R27 says. -/
def Obligations.AcceptNeverFails : Prop :=
  ∀ (id : CanId) (s : State), s.TableOk → s.inp.port = .rx → s.inp.dp.length ≤ 8 →
    ∃ (t : State) (r : Result) (v : Verdict), exec (.accept id) s = .next t ∧ t.answers = s.answers ++ [⟨.rx, r⟩] ∧
      r.status = 0x00 ∧ r.verdict = some v ∧ (r.msg.isSome = true ↔ v = .completed) ∧
      (∀ h data, s.inp.dp = h :: data → h.toNat % 32 ≠ 0 → s.table.get id = none →
        isFastPacket s.bind.model (decodeCanId id).pgn = true → v ≠ .completed) ∧
      t.TableOk

/-- R92: ACCEPT of one identifier never changes the entry, or a byte, of another, nor LOCAL_ADDR. -/
def Obligations.AcceptLeavesOtherIdentifiers : Prop :=
  ∀ (id k : CanId) (s t : State), exec (.accept id) s = .next t → k ≠ id →
    t.table.get k = s.table.get k ∧ (∀ off, t.table.readByte k off = s.table.readByte k off) ∧ t.localAddr = s.localAddr

/-- R45, R133: the same continuation frame presented twice in a row is OutOfSequence the second time. -/
def Obligations.RepeatedContinuationIsDropped : Prop :=
  ∀ (id : CanId) (h : Byte) (data : List Byte) (s t : State), h.toNat % 32 ≠ 0 → data.length = 7 →
    s.table.get id ≠ none →
    exec (.accept id) (s.withInput .rx (h :: data)) = .next t → t.table.get id ≠ none →
    exec (.accept id) (t.withInput .rx (h :: data)) =
      .next (((t.withInput .rx (h :: data)).setTable (t.table.erase id)).respond
        { status := 0x00, verdict := some (.discarded .outOfSequence) })

/-- R94: the frames SEGMENT emits for a payload of 9 to 223 bytes on a Fast Packet PGN, accepted in order with no entry for
their identifier and a free slot, give InProgress for all but the last, and Completed with the original payload for the
last; the header is the original one, but for the destination of a PDU2 PGN; T is as it was. -/
def Obligations.SegmentThenAcceptRoundTrip : Prop :=
  ∀ (p : Pri) (g : Pgn) (a d : Addr) (payload : List Byte) (id : CanId) (port : Port) (r : Result) (s u : State),
    9 ≤ payload.length → payload.length ≤ 223 → encodeCanId p g a d = .ok id →
    exec (.segment p g a d) (s.withInput port payload) = .next u → u.lastResult = some r →
    isFastPacket s.bind.model g = true → s.table.get id = none → s.table.hasSlot s.bind.numFpSlots = true →
    ∃ t : State, acceptAll r.frames s = .next t ∧ t.table = s.table ∧ t.localAddr = s.localAddr ∧
      t.answers.map (fun x => (x.result.status, x.result.verdict, x.result.msg)) =
        s.answers.map (fun x => (x.result.status, x.result.verdict, x.result.msg)) ++
        List.replicate ((payload.length + 7) / 7 - 1) (0x00, some .inProgress, none) ++
        [(0x00, some .completed,
          some { toHeader := ⟨p, g, a, if (g.extractLsb' 8 8).toNat < 240 then d else 0xFF⟩, payload := payload })]

/-- R94: a payload of at most 8 bytes on a PGN that is not Fast Packet survives SEGMENT then ACCEPT. -/
def Obligations.SingleFrameRoundTrip : Prop :=
  ∀ (p : Pri) (g : Pgn) (a d : Addr) (payload : List Byte) (id : CanId) (port : Port) (r : Result) (s u : State),
    payload.length ≤ 8 → encodeCanId p g a d = .ok id →
    exec (.segment p g a d) (s.withInput port payload) = .next u → u.lastResult = some r →
    isFastPacket s.bind.model g = false → s.table.get id = none →
    ∃ t : State, acceptAll r.frames s = .next t ∧ t.table = s.table ∧
      t.lastResult = some
        { status := 0x00, verdict := some .completed,
          msg := some
            { toHeader := ⟨p, g, a, if (g.extractLsb' 8 8).toNat < 240 then d else 0xFF⟩, payload := payload } }

/-- R95: FP_FLUSH on RX drops every reassembly in progress and changes nothing else. -/
def Obligations.FlushEmptiesTable : Prop :=
  ∀ s : State, s.inp.port = .rx → s.inp.dp = [] →
    ∃ t : State, exec .fpFlush s = .next t ∧ t = (s.setTable t.table).respond { status := 0x00 } ∧
      (∀ id, t.table.get id = none) ∧ t.readCfg .fpActive = some 0

/-! ## The Group Function builder -/

/-- R97, R70, R72, R98: BUILD_REQUEST's message, byte by byte, whatever the field model says. -/
def Obligations.BuildRequestMessage : Prop :=
  ∀ (cpgn : Pgn) (a : Addr) (s : State), s.inp.dp = [] → s.localAddr = some a →
    exec (.buildRequest cpgn) s = .next (s.respond
      { status := 0x00,
        msg := some
          { pri := 2, pgn := s.bind.gfPgn, src := a, dst := 0xFF,
            payload := [0x00] ++ pgnBytes cpgn ++
              [0xFF, 0xFF, 0xFF, 0xFF, 0xFF, 0xFF, 0x02, 0x01, 0xE4, 0x07, 0x03, 0x04] } })

/-- R99, R71, R72, R102: BUILD_COMMAND's message, byte by byte, for a field FieldSchema resolves to a width of 1 to 64: bit j
of the value bytes is bit j of Quantize's answer below the width, and 1 from there on. -/
def Obligations.BuildCommandMessage : Prop :=
  ∀ (cpgn : Pgn) (dst : Addr) (fidx : BitVec 8) (a : Addr) (fd : FieldDesc) (s : State), s.inp.dp = [] →
    s.localAddr = some a → fidx ≠ 255 → fieldSchema s.bind.model cpgn fidx = some fd → 1 ≤ fd.width → fd.width ≤ 64 →
    ∃ value : List Byte,
      exec (.buildCommand cpgn dst fidx) s = .next (s.respond
        { status := 0x00,
          msg := some
            { pri := 2, pgn := s.bind.gfPgn, src := a, dst := dst,
              payload := [0x01] ++ pgnBytes cpgn ++
                [s.bind.cmdPrioByte, 0x03, 0x01, 0xE4, 0x07, 0x03, 0x04, fidx + 1] ++ value } }) ∧
      value.length = (fd.width + 7) / 8 ∧
      ∀ j < 8 * value.length, (value.getD (j / 8) 0).getLsbD (j % 8) =
        if j < fd.width then (quantize s.bind.model fd s.inp.vp).getLsbD j else true

/-- R100: what makes BUILD_COMMAND raise SchemaResolutionError, with no message. -/
def Obligations.SchemaResolutionRaises : Prop :=
  ∀ (cpgn : Pgn) (dst : Addr) (fidx : BitVec 8) (s : State), s.inp.dp = [] → s.localAddr ≠ none →
    (fidx = 255 ∨ fieldSchema s.bind.model cpgn fidx = none ∨
      ∃ fd, fieldSchema s.bind.model cpgn fidx = some fd ∧ (fd.width = 0 ∨ 64 < fd.width)) →
    exec (.buildCommand cpgn dst fidx) s = .next (s.respond { status := 0x02 })

/-- R24, R97, R99, R108, R115: while LOCAL_ADDR is UNSET, both BUILD commands and CFG_READ of register 0 raise ConfigNotSet,
BUILD_COMMAND before it looks at the schema. -/
def Obligations.UnsetAddressRaises : Prop :=
  ∀ (cpgn : Pgn) (dst : Addr) (fidx : BitVec 8) (s : State), s.inp.dp = [] → s.localAddr = none →
    exec (.buildRequest cpgn) s = .next (s.respond { status := 0x04 }) ∧
    exec (.buildCommand cpgn dst fidx) s = .next (s.respond { status := 0x04 }) ∧
    exec (.cfgRead 0) s = .next (s.respond { status := 0x04 })

/-- R102: `packLE` of w value bits: `ceil(w / 8)` bytes, least significant first, the bits from w on all 1. -/
def Obligations.PackLittleEndian : Prop :=
  ∀ (raw : BitVec 64) (w : Nat), 1 ≤ w → w ≤ 64 →
    (packLE raw w).length = (w + 7) / 8 ∧
    ∀ j < 8 * (packLE raw w).length, ((packLE raw w).getD (j / 8) 0).getLsbD (j % 8) = (raw.getLsbD j || decide (w ≤ j))

/-- R103: the identification pairs are always the first two, after the count that counts them. -/
def Obligations.IdentificationPairsFirst : Prop :=
  ∀ (s t : State) (r : Result) (m : PgnMessage), t.lastResult = some r → r.msg = some m →
    (∀ cpgn, exec (.buildRequest cpgn) s = .next t →
      (m.payload.drop 10).take 6 = [0x02, 0x01, 0xE4, 0x07, 0x03, 0x04]) ∧
    (∀ cpgn dst fidx, exec (.buildCommand cpgn dst fidx) s = .next t →
      (m.payload.drop 5).take 6 = [0x03, 0x01, 0xE4, 0x07, 0x03, 0x04])

/-- R104, R74: every message a BUILD command returns is accepted by SEGMENT when GF_PGN meets R73: its priority is 2, its
PGN is PDU1 with low byte 0, its 13 to 20 bytes are 2 or 3 Fast Packet frames, and with the default GF_PGN and LOCAL_ADDR = a
the identifier is R104's. -/
def Obligations.BuiltMessagesSegment : Prop :=
  ∀ (s t : State) (r : Result) (m : PgnMessage) (port : Port) (a : Addr), s.bind.GfPgnCarriesDestination →
    t.lastResult = some r → r.msg = some m → s.localAddr = some a →
    ∀ dst : Addr,
      ((∃ cpgn, exec (.buildRequest cpgn) s = .next t ∧ dst = 0xFF) ∨
        ∃ cpgn fidx, exec (.buildCommand cpgn dst fidx) s = .next t) →
      m.pri = 2 ∧ (m.pgn.extractLsb' 8 8).toNat < 240 ∧ m.pgn.extractLsb' 0 8 = 0 ∧
      13 ≤ m.payload.length ∧ m.payload.length ≤ 20 ∧
      ∃ frames : List Frame, 2 ≤ frames.length ∧ frames.length ≤ 3 ∧
        exec (.segment m.pri m.pgn m.src m.dst) (t.withInput port m.payload) =
          .next ((t.withInput port m.payload).respond { status := 0x00, frames := frames }) ∧
        (s.bind.gfPgn = 0x1ED00 → ∀ f ∈ frames,
          f.id = 0x09ED0000#29 ||| dst.setWidth 29 <<< 8 ||| a.setWidth 29)

/-- R62, R74, R104: SEND_REQUEST with LOCAL_ADDR set and the default GF_PGN gives the three frames of the source's worked
example, for every commanded PGN. -/
def Obligations.SendRequestFrames : Prop :=
  ∀ (cpgn : Pgn) (a : Addr) (s : State), s.inp.dp = [] → s.localAddr = some a → s.bind.gfPgn = 0x1ED00 →
    ∃ t : State, sendRequest cpgn s = .next t ∧ t.table = s.table ∧ t.localAddr = some a ∧
      t.lastResult = some
        { status := 0x00,
          frames := [
            ⟨0x09EDFF00#29 ||| a.setWidth 29, [0x40, 0x10, 0x00] ++ pgnBytes cpgn ++ [0xFF, 0xFF]⟩,
            ⟨0x09EDFF00#29 ||| a.setWidth 29, [0x41, 0xFF, 0xFF, 0xFF, 0xFF, 0x02, 0x01, 0xE4]⟩,
            ⟨0x09EDFF00#29 ||| a.setWidth 29, [0x42, 0x07, 0x03, 0x04, 0xFF, 0xFF, 0xFF, 0xFF]⟩] }

/-! ## The diagnostic line -/

/-- R105, R76: FORMAT_LINE's text, character by character. -/
def Obligations.FormatLineText : Prop :=
  ∀ (id : CanId) (s : State), s.inp.dp.length ≤ 8 →
    ∃ text : List Byte, exec (.formatLine id) s = .next (s.respond { status := 0x00, line := text }) ∧
      text.length = 8 + 3 * s.inp.dp.length + 2 ∧
      (∀ j < 8, text[j]? = some (upperHex (id.toNat / 16 ^ (7 - j) % 16))) ∧
      (∀ k b, s.inp.dp[k]? = some b → text[8 + 3 * k]? = some 0x20 ∧
        text[8 + 3 * k + 1]? = some (upperHex (b.toNat / 16)) ∧ text[8 + 3 * k + 2]? = some (upperHex (b.toNat % 16))) ∧
      text.drop (8 + 3 * s.inp.dp.length) = [0x0D, 0x0A]

/-- R106: PARSE_LINE reads every line of the grammar whose identifier is below 2^29. -/
def Obligations.ParseLineReadsGrammar : Prop :=
  ∀ (s : State) (id : CanId) (bytes : List Byte), IsLine s.inp.dp id bytes →
    exec .parseLine s = .next (s.respond { status := 0x00, id := some id, frames := [⟨id, bytes⟩] })

/-- R106: anything else raises MalformedLine. -/
def Obligations.ParseLineRejectsOthers : Prop :=
  ∀ s : State, (∀ id bytes, ¬ IsLine s.inp.dp id bytes) → exec .parseLine s = .next (s.respond { status := 0x07 })

/-- R107: a formatted line parses back to exactly its frame, and a parsed line without lower-case letters formats back to
itself. -/
def Obligations.LineRoundTrip : Prop :=
  (∀ (id : CanId) (s : State), s.inp.dp.length ≤ 8 →
    ∃ line : List Byte, exec (.formatLine id) s = .next (s.respond { status := 0x00, line := line }) ∧
      ∀ s' : State, s'.inp.dp = line →
        exec .parseLine s' = .next (s'.respond { status := 0x00, id := some id, frames := [⟨id, s.inp.dp⟩] })) ∧
  ∀ (id : CanId) (f : Frame) (s s' : State),
    exec .parseLine s = .next (s.respond { status := 0x00, id := some id, frames := [f] }) →
    (∀ b ∈ s.inp.dp, b.toNat < 0x61) → s'.inp.dp = f.data →
    exec (.formatLine f.id) s' = .next (s'.respond { status := 0x00, line := s.inp.dp })

/-! ## Configuration -/

/-- R108, R23 to R25: what each register reads, bits above its width 0, and which numbers exist. That FP_SLOTS reads a free
value where NUM_FP_SLOTS passes 32 bits is the model's choice (log entry 9). -/
def Obligations.CfgReadValues : Prop :=
  ∀ (reg : BitVec 8) (s : State), s.inp.dp = [] →
    exec (.cfgRead reg) s = .next (s.respond (
      if reg = 0x00 then (match s.localAddr with
        | none => { status := 0x04 }
        | some a => { status := 0x00, cfgval := some (a.setWidth 32) })
      else if reg = 0x01 then { status := 0x00, cfgval := some 0x000007E4 }
      else if reg = 0x02 then { status := 0x00, cfgval := some 4 }
      else if reg = 0x03 then { status := 0x00, cfgval := some (s.bind.gfPgn.setWidth 32) }
      else if reg = 0x04 then { status := 0x00, cfgval := some (s.bind.cmdPrioByte.setWidth 32) }
      else if reg = 0x05 then { status := 0x00, cfgval := some (BitVec.ofNat 32 s.table.count) }
      else if reg = 0x06 then { status := 0x00, cfgval := some (match s.bind.numFpSlots with
        | none => 0
        | some n => if n < 2 ^ 32 then BitVec.ofNat 32 n else Config.wideSlotCount n) }
      else if reg = 0x07 then { status := 0x00, cfgval := some 2 }
      else { status := 0x05 }))

/-- R109: CFG_WRITE, its checks in order: an unknown register, then a read-only one, then a value above 0xFF; on success
LOCAL_ADDR alone is written. -/
def Obligations.CfgWriteEffect : Prop :=
  ∀ (reg : BitVec 8) (value : BitVec 32) (s : State), s.inp.dp = [] →
    exec (.cfgWrite reg value) s =
      if 0x07 < reg.toNat then .next (s.respond { status := 0x05 })
      else if reg ≠ 0x00 then .next (s.respond { status := 0x06 })
      else if 0xFF < value.toNat then .next (s.respond { status := 0x05 })
      else .next ((s.setLocalAddr (BitVec.ofNat 8 value.toNat)).respond { status := 0x00 })

/-- R24, R108, R109: an address written is the address read back, and the source of the message that BUILD_REQUEST or
BUILD_COMMAND builds next, on either port and with any value on VP. -/
def Obligations.WrittenAddressIsUsed : Prop :=
  ∀ (a : Addr) (cpgn : Pgn) (p : Port) (vp : Decimal) (s t : State), s.inp.dp = [] →
    exec (setAddr (a.setWidth 32)) s = .next t →
    t.localAddr = some a ∧
    exec (.cfgRead 0) (t.withInput p []) =
      .next ((t.withInput p []).respond { status := 0x00, cfgval := some (a.setWidth 32) }) ∧
    (∃ (u : State) (r : Result) (m : PgnMessage), exec (.buildRequest cpgn) { t with inp := ⟨p, [], vp⟩ } = .next u ∧
      u.lastResult = some r ∧ r.msg = some m ∧ m.src = a) ∧
    ∀ (dst : Addr) (fidx : BitVec 8) (u : State) (r : Result) (m : PgnMessage),
      exec (.buildCommand cpgn dst fidx) { t with inp := ⟨p, [], vp⟩ } = .next u → u.lastResult = some r →
      r.msg = some m → m.src = a
end

