-- ==== Sys2Proof/Laws/Memory.lean ====
section
/-! SUPPORT. The reassembly table: reading after writing, and the canonical form, which every operation keeps (R26). -/

namespace Sys2Proof.Machine

variable {t : Memory} {id k : CanId} {e f : Entry}

/-! ## The canonical form -/

theorem wf_iff : t.wf = true ↔ t.Pairwise fun a b => a.1.toNat < b.1.toNat := by
  simp [Memory.wf]

@[simp] theorem wf_nil : Memory.wf [] = true := rfl

theorem wf_cons {rest : Memory} :
    Memory.wf ((k, e) :: rest) = true ↔ (∀ p ∈ rest, k.toNat < p.1.toNat) ∧ Memory.wf rest = true := by
  simp [wf_iff]

/-! ## What erasing and inserting leave in the list -/

theorem mem_erase {p : CanId × Entry} : p ∈ t.erase id ↔ p ∈ t ∧ p.1 ≠ id := by
  induction t with
  | nil => simp [Memory.erase]
  | cons q rest ih =>
    obtain ⟨k, e⟩ := q
    simp only [Memory.erase]
    split
    · subst k; rw [ih]; simp only [List.mem_cons]
      constructor
      · exact fun h => ⟨.inr h.1, h.2⟩
      · rintro ⟨rfl | h, hne⟩
        · exact absurd rfl hne
        · exact ⟨h, hne⟩
    · rename_i hne
      simp only [List.mem_cons, ih]
      constructor
      · rintro (rfl | h)
        · exact ⟨.inl rfl, hne⟩
        · exact ⟨.inr h.1, h.2⟩
      · rintro ⟨rfl | h, hne'⟩
        · exact .inl rfl
        · exact .inr ⟨h, hne'⟩

theorem mem_insert {p : CanId × Entry} : p ∈ t.insert id e ↔ p = (id, e) ∨ p ∈ t := by
  induction t with
  | nil => simp [Memory.insert]
  | cons q rest ih =>
    obtain ⟨k, f⟩ := q
    simp only [Memory.insert]
    split
    · simp
    · simp only [List.mem_cons, ih]; tauto

theorem mem_set {p : CanId × Entry} : p ∈ t.set id e ↔ p = (id, e) ∨ p ∈ t ∧ p.1 ≠ id := by
  simp [Memory.set, mem_insert, mem_erase]

theorem erase_count_le : (t.erase id).count ≤ t.count := by
  induction t with
  | nil => simp [Memory.erase, Memory.count]
  | cons q rest ih =>
    obtain ⟨k, e⟩ := q
    simp only [Memory.erase, Memory.count] at *
    split <;> simp <;> omega

theorem insert_count : (t.insert id e).count = t.count + 1 := by
  induction t with
  | nil => rfl
  | cons q rest ih =>
    obtain ⟨k, f⟩ := q
    simp only [Memory.insert, Memory.count] at *
    split <;> simp_all

theorem set_count : (t.set id e).count = (t.erase id).count + 1 := insert_count

/-! ## Every operation keeps the canonical form -/

theorem erase_wf (h : t.wf = true) : (t.erase id).wf = true := by
  induction t with
  | nil => rfl
  | cons q rest ih =>
    obtain ⟨k, e⟩ := q
    obtain ⟨hk, hr⟩ := wf_cons.mp h
    simp only [Memory.erase]
    split
    · exact ih hr
    · exact wf_cons.mpr ⟨fun p hp => hk p (mem_erase.mp hp).1, ih hr⟩

theorem insert_wf (h : t.wf = true) (hid : ∀ p ∈ t, p.1 ≠ id) : (t.insert id e).wf = true := by
  induction t with
  | nil => rfl
  | cons q rest ih =>
    obtain ⟨k, f⟩ := q
    obtain ⟨hk, hr⟩ := wf_cons.mp h
    simp only [Memory.insert]
    split
    · rename_i hlt
      refine wf_cons.mpr ⟨?_, h⟩
      intro p hp
      rcases List.mem_cons.mp hp with rfl | hp
      · exact hlt
      · exact Nat.lt_trans hlt (hk p hp)
    · rename_i hlt
      have hne : k.toNat ≠ id.toNat := fun hc => hid _ (List.mem_cons_self ..) (BitVec.eq_of_toNat_eq hc)
      refine wf_cons.mpr ⟨?_, ih hr fun p hp => hid p (List.mem_cons_of_mem _ hp)⟩
      intro p hp
      rcases mem_insert.mp hp with rfl | hp
      · simp only; omega
      · exact hk p hp

theorem set_wf (h : t.wf = true) : (t.set id e).wf = true :=
  insert_wf (erase_wf h) fun _ hp => (mem_erase.mp hp).2

/-! ## Reading after writing -/

@[simp] theorem get_nil : Memory.get [] id = none := rfl

theorem get_eq_none_of_forall (h : ∀ p ∈ t, p.1 ≠ id) : t.get id = none := by
  induction t with
  | nil => rfl
  | cons q rest ih =>
    obtain ⟨k, e⟩ := q
    have hk : k ≠ id := h (k, e) (List.mem_cons_self ..)
    simp only [Memory.get, if_neg hk]
    exact ih fun p hp => h p (List.mem_cons_of_mem _ hp)

theorem mem_of_get (h : t.get id = some e) : (id, e) ∈ t := by
  induction t with
  | nil => simp at h
  | cons q rest ih =>
    obtain ⟨k, f⟩ := q
    simp only [Memory.get] at h
    split at h
    · simp_all
    · exact List.mem_cons_of_mem _ (ih h)

theorem get_erase_self : (t.erase id).get id = none :=
  get_eq_none_of_forall fun _ hp => (mem_erase.mp hp).2

theorem get_erase_of_ne (h : k ≠ id) : (t.erase id).get k = t.get k := by
  induction t with
  | nil => rfl
  | cons q rest ih =>
    obtain ⟨j, e⟩ := q
    simp only [Memory.erase, Memory.get]
    split
    · subst j; rw [ih, if_neg (Ne.symm h)]
    · simp only [Memory.get, ih]

theorem get_insert_self (h : ∀ p ∈ t, p.1 ≠ id) : (t.insert id e).get id = some e := by
  induction t with
  | nil => simp [Memory.insert, Memory.get]
  | cons q rest ih =>
    obtain ⟨k, f⟩ := q
    have hk : k ≠ id := h (k, f) (List.mem_cons_self ..)
    simp only [Memory.insert]
    split
    · simp [Memory.get]
    · simp only [Memory.get, if_neg hk]
      exact ih fun p hp => h p (List.mem_cons_of_mem _ hp)

theorem get_insert_of_ne (h : k ≠ id) : (t.insert id e).get k = t.get k := by
  induction t with
  | nil => simp [Memory.insert, Memory.get, Ne.symm h]
  | cons q rest ih =>
    obtain ⟨j, f⟩ := q
    simp only [Memory.insert]
    split
    · simp [Memory.get, Ne.symm h]
    · simp only [Memory.get, ih]

@[simp] theorem get_set_self : (t.set id e).get id = some e :=
  get_insert_self fun _ hp => (mem_erase.mp hp).2

theorem get_set_of_ne (h : k ≠ id) : (t.set id e).get k = t.get k := by
  rw [Memory.set, get_insert_of_ne h, get_erase_of_ne h]

theorem erase_of_get_none (h : t.get id = none) : t.erase id = t := by
  induction t with
  | nil => rfl
  | cons q rest ih =>
    obtain ⟨k, e⟩ := q
    simp only [Memory.get] at h
    split at h
    · simp at h
    · rename_i hne
      simp only [Memory.erase, if_neg hne, ih h]

/-- Erasing what was just put in a table that had none gives the table back. -/
theorem erase_set_of_get_none (h : t.get id = none) : (t.set id e).erase id = t := by
  have hx : ∀ {t : Memory}, t.get id = none → (t.insert id e).erase id = t := by
    intro t
    induction t with
    | nil => simp [Memory.insert, Memory.erase]
    | cons q rest ih =>
      obtain ⟨k, f⟩ := q
      intro h
      have h0 := erase_of_get_none h
      simp only [Memory.get] at h
      split at h
      · simp at h
      · rename_i hne
        simp only [Memory.insert]
        split
        · simpa [Memory.erase] using h0
        · simp only [Memory.erase, if_neg hne, ih h]
  rw [Memory.set, erase_of_get_none h, hx h]

/-- Writing an identifier twice leaves the second entry. -/
theorem set_set_of_get_none (h : t.get id = none) : (t.set id e).set id f = t.set id f := by
  rw [Memory.set, erase_set_of_get_none h, Memory.set, erase_of_get_none h]

/-- An identifier's bytes are its entry's (R35). -/
theorem readByte_eq_of_get_eq {t' : Memory} (h : t'.get k = t.get k) (off : Nat) :
    t'.readByte k off = t.readByte k off := by
  simp [Memory.readByte, h]

end Sys2Proof.Machine
end

