-- ==== Sys2Proof/Laws/State.lean ====
section
/-! SUPPORT. One lemma for each field of the state and each update of it, so that no later proof unfolds a record update. -/

namespace Sys2Proof.Machine

variable (s : State)

/-! ## Ending a command (R17, R20). -/

@[simp] theorem respond_localAddr (r : Result) : (s.respond r).localAddr = s.localAddr := rfl
@[simp] theorem respond_table (r : Result) : (s.respond r).table = s.table := rfl
@[simp] theorem respond_bind (r : Result) : (s.respond r).bind = s.bind := rfl
@[simp] theorem respond_inp (r : Result) : (s.respond r).inp = Input.idle := rfl
@[simp] theorem respond_tx (r : Result) : (s.respond r).tx = s.tx := rfl
@[simp] theorem respond_rx (r : Result) : (s.respond r).rx = s.rx := rfl
@[simp] theorem respond_answers (r : Result) : (s.respond r).answers = s.answers ++ [⟨s.inp.port, r⟩] := rfl
@[simp] theorem respond_taken (r : Result) : (s.respond r).taken = s.taken := rfl
@[simp] theorem respond_resetIn (r : Result) : (s.respond r).resetIn = s.resetIn := rfl
@[simp] theorem respond_waiting (r : Result) (q : Port) : (s.respond r).waiting q = s.waiting q := by
  cases q <;> rfl

/-! ## Writing LOCAL_ADDR (R24). -/

@[simp] theorem setLocalAddr_localAddr (a : Addr) : (s.setLocalAddr a).localAddr = some a := rfl
@[simp] theorem setLocalAddr_table (a : Addr) : (s.setLocalAddr a).table = s.table := rfl
@[simp] theorem setLocalAddr_bind (a : Addr) : (s.setLocalAddr a).bind = s.bind := rfl
@[simp] theorem setLocalAddr_inp (a : Addr) : (s.setLocalAddr a).inp = s.inp := rfl
@[simp] theorem setLocalAddr_tx (a : Addr) : (s.setLocalAddr a).tx = s.tx := rfl
@[simp] theorem setLocalAddr_rx (a : Addr) : (s.setLocalAddr a).rx = s.rx := rfl
@[simp] theorem setLocalAddr_answers (a : Addr) : (s.setLocalAddr a).answers = s.answers := rfl
@[simp] theorem setLocalAddr_taken (a : Addr) : (s.setLocalAddr a).taken = s.taken := rfl
@[simp] theorem setLocalAddr_resetIn (a : Addr) : (s.setLocalAddr a).resetIn = s.resetIn := rfl
@[simp] theorem setLocalAddr_waiting (a : Addr) (q : Port) : (s.setLocalAddr a).waiting q = s.waiting q := by
  cases q <;> rfl

/-! ## Writing T (R29). -/

@[simp] theorem setTable_localAddr (t : Memory) : (s.setTable t).localAddr = s.localAddr := rfl
@[simp] theorem setTable_table (t : Memory) : (s.setTable t).table = t := rfl
@[simp] theorem setTable_bind (t : Memory) : (s.setTable t).bind = s.bind := rfl
@[simp] theorem setTable_inp (t : Memory) : (s.setTable t).inp = s.inp := rfl
@[simp] theorem setTable_tx (t : Memory) : (s.setTable t).tx = s.tx := rfl
@[simp] theorem setTable_rx (t : Memory) : (s.setTable t).rx = s.rx := rfl
@[simp] theorem setTable_answers (t : Memory) : (s.setTable t).answers = s.answers := rfl
@[simp] theorem setTable_taken (t : Memory) : (s.setTable t).taken = s.taken := rfl
@[simp] theorem setTable_resetIn (t : Memory) : (s.setTable t).resetIn = s.resetIn := rfl
@[simp] theorem setTable_waiting (t : Memory) (q : Port) : (s.setTable t).waiting q = s.waiting q := by
  cases q <;> rfl

/-! ## The reset event (R127, R128). -/

@[simp] theorem takeReset_localAddr (b : Binding) : (s.takeReset b).localAddr = none := rfl
@[simp] theorem takeReset_table (b : Binding) : (s.takeReset b).table = [] := rfl
@[simp] theorem takeReset_bind (b : Binding) : (s.takeReset b).bind = b := rfl
@[simp] theorem takeReset_inp (b : Binding) : (s.takeReset b).inp = Input.idle := rfl
@[simp] theorem takeReset_tx (b : Binding) : (s.takeReset b).tx = s.tx := rfl
@[simp] theorem takeReset_rx (b : Binding) : (s.takeReset b).rx = s.rx := rfl
@[simp] theorem takeReset_answers (b : Binding) : (s.takeReset b).answers = s.answers := rfl
@[simp] theorem takeReset_taken (b : Binding) : (s.takeReset b).taken = s.taken := rfl
@[simp] theorem takeReset_resetIn (b : Binding) : (s.takeReset b).resetIn = none := rfl
@[simp] theorem takeReset_waiting (b : Binding) (q : Port) : (s.takeReset b).waiting q = s.waiting q := by
  cases q <;> rfl

/-! ## Asserting the reset input (R127). -/

@[simp] theorem assertReset_localAddr (b : Binding) : (s.assertReset b).localAddr = s.localAddr := rfl
@[simp] theorem assertReset_table (b : Binding) : (s.assertReset b).table = s.table := rfl
@[simp] theorem assertReset_bind (b : Binding) : (s.assertReset b).bind = s.bind := rfl
@[simp] theorem assertReset_inp (b : Binding) : (s.assertReset b).inp = s.inp := rfl
@[simp] theorem assertReset_tx (b : Binding) : (s.assertReset b).tx = s.tx := rfl
@[simp] theorem assertReset_rx (b : Binding) : (s.assertReset b).rx = s.rx := rfl
@[simp] theorem assertReset_answers (b : Binding) : (s.assertReset b).answers = s.answers := rfl
@[simp] theorem assertReset_taken (b : Binding) : (s.assertReset b).taken = s.taken := rfl
@[simp] theorem assertReset_resetIn (b : Binding) : (s.assertReset b).resetIn = some b := rfl
@[simp] theorem assertReset_waiting (b : Binding) (q : Port) : (s.assertReset b).waiting q = s.waiting q := by
  cases q <;> rfl

/-! ## Changing IsFastPacket between steps (R136). -/

@[simp] theorem changeFastPgns_localAddr (pgns : List Pgn) : (s.changeFastPgns pgns).localAddr = s.localAddr := rfl
@[simp] theorem changeFastPgns_table (pgns : List Pgn) : (s.changeFastPgns pgns).table = s.table := rfl
@[simp] theorem changeFastPgns_bind (pgns : List Pgn) :
    (s.changeFastPgns pgns).bind = { s.bind with model := { s.bind.model with fastPgns := pgns } } := rfl
@[simp] theorem changeFastPgns_inp (pgns : List Pgn) : (s.changeFastPgns pgns).inp = s.inp := rfl
@[simp] theorem changeFastPgns_tx (pgns : List Pgn) : (s.changeFastPgns pgns).tx = s.tx := rfl
@[simp] theorem changeFastPgns_rx (pgns : List Pgn) : (s.changeFastPgns pgns).rx = s.rx := rfl
@[simp] theorem changeFastPgns_answers (pgns : List Pgn) : (s.changeFastPgns pgns).answers = s.answers := rfl
@[simp] theorem changeFastPgns_taken (pgns : List Pgn) : (s.changeFastPgns pgns).taken = s.taken := rfl
@[simp] theorem changeFastPgns_resetIn (pgns : List Pgn) : (s.changeFastPgns pgns).resetIn = s.resetIn := rfl
@[simp] theorem changeFastPgns_waiting (pgns : List Pgn) (q : Port) : (s.changeFastPgns pgns).waiting q = s.waiting q := by
  cases q <;> rfl

/-! ## Putting a command's port and data in place (R19). -/

@[simp] theorem withInput_localAddr (p : Port) (dp : List Byte) : (s.withInput p dp).localAddr = s.localAddr := rfl
@[simp] theorem withInput_table (p : Port) (dp : List Byte) : (s.withInput p dp).table = s.table := rfl
@[simp] theorem withInput_bind (p : Port) (dp : List Byte) : (s.withInput p dp).bind = s.bind := rfl
@[simp] theorem withInput_inp (p : Port) (dp : List Byte) : (s.withInput p dp).inp = ⟨p, dp, ⟨0, 0⟩⟩ := rfl
@[simp] theorem withInput_tx (p : Port) (dp : List Byte) : (s.withInput p dp).tx = s.tx := rfl
@[simp] theorem withInput_rx (p : Port) (dp : List Byte) : (s.withInput p dp).rx = s.rx := rfl
@[simp] theorem withInput_answers (p : Port) (dp : List Byte) : (s.withInput p dp).answers = s.answers := rfl
@[simp] theorem withInput_taken (p : Port) (dp : List Byte) : (s.withInput p dp).taken = s.taken := rfl
@[simp] theorem withInput_resetIn (p : Port) (dp : List Byte) : (s.withInput p dp).resetIn = s.resetIn := rfl
@[simp] theorem withInput_waiting (p : Port) (dp : List Byte) (q : Port) : (s.withInput p dp).waiting q = s.waiting q := by
  cases q <;> rfl

/-! ## Taking a command from a port (R19, R53), and issuing one (R18). -/

@[simp] theorem setWaiting_localAddr (p : Port) (cs : List Command) : (s.setWaiting p cs).localAddr = s.localAddr := by cases p <;> rfl
@[simp] theorem setWaiting_table (p : Port) (cs : List Command) : (s.setWaiting p cs).table = s.table := by cases p <;> rfl
@[simp] theorem setWaiting_bind (p : Port) (cs : List Command) : (s.setWaiting p cs).bind = s.bind := by cases p <;> rfl
@[simp] theorem setWaiting_inp (p : Port) (cs : List Command) : (s.setWaiting p cs).inp = s.inp := by cases p <;> rfl
@[simp] theorem setWaiting_tx_tx (cs : List Command) : (s.setWaiting .tx cs).tx = cs := rfl
@[simp] theorem setWaiting_rx_tx (cs : List Command) : (s.setWaiting .rx cs).tx = s.tx := rfl
@[simp] theorem setWaiting_rx_rx (cs : List Command) : (s.setWaiting .rx cs).rx = cs := rfl
@[simp] theorem setWaiting_tx_rx (cs : List Command) : (s.setWaiting .tx cs).rx = s.rx := rfl
@[simp] theorem setWaiting_answers (p : Port) (cs : List Command) : (s.setWaiting p cs).answers = s.answers := by cases p <;> rfl
@[simp] theorem setWaiting_taken (p : Port) (cs : List Command) : (s.setWaiting p cs).taken = s.taken := by cases p <;> rfl
@[simp] theorem setWaiting_resetIn (p : Port) (cs : List Command) : (s.setWaiting p cs).resetIn = s.resetIn := by cases p <;> rfl
@[simp] theorem setWaiting_waiting_self (p : Port) (cs : List Command) : (s.setWaiting p cs).waiting p = cs := by cases p <;> rfl
@[simp] theorem waiting_tx : s.waiting .tx = s.tx := rfl
@[simp] theorem waiting_rx : s.waiting .rx = s.rx := rfl
@[simp] theorem latch_localAddr (p : Port) (c : Command) (cs : List Command) : (s.latch p c cs).localAddr = s.localAddr := by
  cases p <;> rfl
@[simp] theorem latch_table (p : Port) (c : Command) (cs : List Command) : (s.latch p c cs).table = s.table := by
  cases p <;> rfl
@[simp] theorem latch_bind (p : Port) (c : Command) (cs : List Command) : (s.latch p c cs).bind = s.bind := by
  cases p <;> rfl
@[simp] theorem latch_inp (p : Port) (c : Command) (cs : List Command) : (s.latch p c cs).inp = ⟨p, c.dp, c.vp⟩ := rfl
@[simp] theorem latch_tx_tx (c : Command) (cs : List Command) : (s.latch .tx c cs).tx = cs := rfl
@[simp] theorem latch_rx_tx (c : Command) (cs : List Command) : (s.latch .rx c cs).tx = s.tx := rfl
@[simp] theorem latch_rx_rx (c : Command) (cs : List Command) : (s.latch .rx c cs).rx = cs := rfl
@[simp] theorem latch_tx_rx (c : Command) (cs : List Command) : (s.latch .tx c cs).rx = s.rx := rfl
@[simp] theorem latch_answers (p : Port) (c : Command) (cs : List Command) : (s.latch p c cs).answers = s.answers := by
  cases p <;> rfl
@[simp] theorem latch_taken (p : Port) (c : Command) (cs : List Command) : (s.latch p c cs).taken = s.taken + 1 := rfl
@[simp] theorem latch_resetIn (p : Port) (c : Command) (cs : List Command) : (s.latch p c cs).resetIn = s.resetIn := by
  cases p <;> rfl
@[simp] theorem present_localAddr (p : Port) (c : Command) : (s.present p c).localAddr = s.localAddr := by cases p <;> rfl
@[simp] theorem present_table (p : Port) (c : Command) : (s.present p c).table = s.table := by cases p <;> rfl
@[simp] theorem present_bind (p : Port) (c : Command) : (s.present p c).bind = s.bind := by cases p <;> rfl
@[simp] theorem present_inp (p : Port) (c : Command) : (s.present p c).inp = s.inp := by cases p <;> rfl
@[simp] theorem present_answers (p : Port) (c : Command) : (s.present p c).answers = s.answers := by cases p <;> rfl
@[simp] theorem present_taken (p : Port) (c : Command) : (s.present p c).taken = s.taken := by cases p <;> rfl
@[simp] theorem present_resetIn (p : Port) (c : Command) : (s.present p c).resetIn = s.resetIn := by cases p <;> rfl
@[simp] theorem present_waiting (p : Port) (c : Command) : (s.present p c).waiting p = s.waiting p ++ [c] := by cases p <;> rfl

/-! ## The results that commands make (R20, R112). -/

@[simp] theorem raised_status (st : Status) : (Result.raised st).status = st.code := rfl
@[simp] theorem raised_verdict (st : Status) : (Result.raised st).verdict = none := rfl
@[simp] theorem raised_msg (st : Status) : (Result.raised st).msg = none := rfl
@[simp] theorem raised_frames (st : Status) : (Result.raised st).frames = [] := rfl
@[simp] theorem ok_status : Result.ok.status = Status.code .ok := rfl
@[simp] theorem ok_verdict : Result.ok.verdict = none := rfl
@[simp] theorem ok_msg : Result.ok.msg = none := rfl
@[simp] theorem ok_frames : Result.ok.frames = [] := rfl
@[simp] theorem completed_status (m : PgnMessage) : (Result.completed m).status = Status.code .ok := rfl
@[simp] theorem completed_verdict (m : PgnMessage) : (Result.completed m).verdict = some .completed := rfl
@[simp] theorem completed_msg (m : PgnMessage) : (Result.completed m).msg = some m := rfl
@[simp] theorem completed_frames (m : PgnMessage) : (Result.completed m).frames = [] := rfl
@[simp] theorem verdictOnly_status (v : Verdict) : (Result.verdictOnly v).status = Status.code .ok := rfl
@[simp] theorem verdictOnly_verdict (v : Verdict) : (Result.verdictOnly v).verdict = some v := rfl
@[simp] theorem verdictOnly_msg (v : Verdict) : (Result.verdictOnly v).msg = none := rfl
@[simp] theorem verdictOnly_frames (v : Verdict) : (Result.verdictOnly v).frames = [] := rfl

end Sys2Proof.Machine
end

