-- ==== Sys2Proof/Laws/Ops.lean ====
section
/-! SUPPORT. What each shared operation can do, said once, so that no proof unfolds one. -/

namespace Sys2Proof.Machine

variable {s t : State} {body : Outcome}

/-! ## Ending a command -/

@[simp] theorem complete_eq (r : Result) (s : State) : complete r s = .next (s.respond r) := rfl

@[simp] theorem raise_eq (st : Status) (s : State) : raise st s = .next (s.respond (Result.raised st)) := rfl

@[simp] theorem respond_lastResult (r : Result) : (s.respond r).lastResult = some r := by
  simp [State.lastResult]

/-! ## The verdicts given on RX (R22, R48) -/

/-- A result adds a verdict exactly when it carries one and is given on RX. -/
theorem respond_rxVerdicts (r : Result) :
    (s.respond r).rxVerdicts =
      s.rxVerdicts ++ (if s.inp.port = .rx ∧ r.verdict.isSome then [(r.verdict, r.msg)] else []) := by
  simp only [State.rxVerdicts, respond_answers, List.filter_append, List.map_append]
  congr 1
  by_cases hp : s.inp.port = .rx <;> by_cases hv : r.verdict.isSome <;> simp [hp, hv]

@[simp] theorem setTable_rxVerdicts (t : Memory) : (s.setTable t).rxVerdicts = s.rxVerdicts := rfl

@[simp] theorem setLocalAddr_rxVerdicts (a : Addr) : (s.setLocalAddr a).rxVerdicts = s.rxVerdicts := rfl

@[simp] theorem latch_rxVerdicts (p : Port) (c : Command) (rest : List Command) :
    (s.latch p c rest).rxVerdicts = s.rxVerdicts := by cases p <;> rfl

/-! ## The checks of R115 -/

theorem onRxPort_of (h : s.inp.port = .rx) : onRxPort s body = body := if_pos h

theorem onRxPort_else (h : s.inp.port ≠ .rx) : onRxPort s body = .next (s.respond (Result.raised .illegalOperation)) :=
  if_neg h

theorem onRxPort_cases (h : onRxPort s body = .next t) :
    (s.inp.port = .rx ∧ body = .next t) ∨ t = s.respond (Result.raised .illegalOperation) := by
  by_cases hp : s.inp.port = .rx
  · exact .inl ⟨hp, by rwa [onRxPort_of hp] at h⟩
  · rw [onRxPort_else hp] at h; exact .inr (by simpa using h.symm)

theorem withEmptyDp_of (h : s.inp.dp = []) : withEmptyDp s body = body := by simp [withEmptyDp, h]

theorem withEmptyDp_else (h : s.inp.dp ≠ []) :
    withEmptyDp s body = .next (s.respond (Result.raised .illegalOperation)) := by simp [withEmptyDp, h]

theorem withEmptyDp_cases (h : withEmptyDp s body = .next t) :
    (s.inp.dp = [] ∧ body = .next t) ∨ t = s.respond (Result.raised .illegalOperation) := by
  by_cases hp : s.inp.dp = []
  · exact .inl ⟨hp, by rwa [withEmptyDp_of hp] at h⟩
  · rw [withEmptyDp_else hp] at h; exact .inr (by simpa using h.symm)

theorem withFrameDp_of (h : s.inp.dp.length ≤ 8) : withFrameDp s body = body := if_pos h

theorem withFrameDp_else (h : ¬ s.inp.dp.length ≤ 8) :
    withFrameDp s body = .next (s.respond (Result.raised .illegalOperation)) := if_neg h

theorem withFrameDp_cases (h : withFrameDp s body = .next t) :
    (s.inp.dp.length ≤ 8 ∧ body = .next t) ∨ t = s.respond (Result.raised .illegalOperation) := by
  by_cases hp : s.inp.dp.length ≤ 8
  · exact .inl ⟨hp, by rwa [withFrameDp_of hp] at h⟩
  · rw [withFrameDp_else hp] at h; exact .inr (by simpa using h.symm)

/-! ## Taking the next command -/

theorem fetch_cases {p : Port} {cw : CommandWord} (h : s.fetch p = some (cw, t)) :
    ∃ c rest, s.waiting p = c :: rest ∧ cw = c.cw ∧ t = s.latch p c rest := by
  unfold State.fetch at h
  split at h
  · simp at h
  · rename_i c rest hw
    simp only [Option.some.injEq, Prod.mk.injEq] at h
    exact ⟨c, rest, hw, h.1.symm, h.2.symm⟩

theorem fetch_of_waiting {p : Port} {c : Command} {rest : List Command} (h : s.waiting p = c :: rest) :
    s.fetch p = some (c.cw, s.latch p c rest) := by simp [State.fetch, h]

theorem nextPort_eq_none : s.nextPort = none ↔ s.tx = [] ∧ s.rx = [] := by
  unfold State.nextPort; split <;> simp_all

theorem nextPort_waiting {p : Port} (h : s.nextPort = some p) : s.waiting p ≠ [] := by
  unfold State.nextPort at h
  split at h <;> simp_all
  · subst h; simp_all
  · subst h; simp_all
  · cases p <;> simp_all

theorem setWaiting_waiting_of_ne {p q : Port} (h : q ≠ p) (cs : List Command) :
    (s.setWaiting p cs).waiting q = s.waiting q := by
  cases p <;> cases q <;> simp_all [State.setWaiting, State.waiting]

theorem latch_waiting_self {p : Port} (c : Command) (rest : List Command) : (s.latch p c rest).waiting p = rest := by
  cases p <;> rfl

theorem latch_waiting_of_ne {p q : Port} (h : q ≠ p) (c : Command) (rest : List Command) :
    (s.latch p c rest).waiting q = s.waiting q := by
  cases p <;> cases q <;> simp_all [State.latch, State.setWaiting, State.waiting]

/-! ## A reassembly buffer (R36) -/

theorem canWrite_iff {e : Entry} {off n : Nat} : e.canWrite off n = true ↔ off = e.buf.length ∧ off + n ≤ 223 := by
  simp [Entry.canWrite, fpMaxLen]

/-- R27 leaves room for every continuation frame (R37). -/
theorem canWrite_of_ok {e : Entry} (h : e.Ok) : e.canWrite e.acc 7 = true := by
  obtain ⟨h1, h2, h3, h4⟩ := h
  exact canWrite_iff.mpr ⟨h1.symm, by omega⟩

@[simp] theorem append_total (e : Entry) (v : List Byte) (c : Nat) : (e.append v c).total = e.total := rfl
@[simp] theorem append_acc (e : Entry) (v : List Byte) (c : Nat) : (e.append v c).acc = e.acc + v.length := rfl
@[simp] theorem append_last (e : Entry) (v : List Byte) (c : Nat) : (e.append v c).last = c := rfl
@[simp] theorem append_buf (e : Entry) (v : List Byte) (c : Nat) : (e.append v c).buf = e.buf ++ v := rfl

theorem hasSlot_iff {t : Memory} {slots : Option Nat} : t.hasSlot slots = true ↔ ∀ n, slots = some n → t.count < n := by
  cases slots <;> simp [Memory.hasSlot]

/-! ## Results (R20, R112) -/

theorem raised_wf (st : Status) : (Result.raised st).wf = true := by cases st <;> decide

theorem ok_wf {r : Result} (h : r.status = Status.code .ok) : r.wf = true := by
  simp [Result.wf, h, Status.code]

end Sys2Proof.Machine
end

