-- ==== Sys2Proof/Laws/Codec.lean ====
section
/-! SUPPORT. What Encode and Decode answer, case by case (R77, R78), and the reading and writing of command words. -/

namespace Sys2Proof.Machine

variable {p : Pri} {g : Pgn} {a d : Addr} {id : CanId}

theorem isPdu1_iff : isPdu1 g = true ↔ (g.extractLsb' 8 8).toNat < 240 := by
  rw [isPdu1, pduFormat, decide_eq_true_iff]

theorem encodeCanId_pdu1 (h : (g.extractLsb' 8 8).toNat < 240) (h0 : g.extractLsb' 0 8 = 0) :
    encodeCanId p g a d =
      .ok (p.setWidth 29 <<< 26 ||| g.setWidth 29 <<< 8 ||| d.setWidth 29 <<< 8 ||| a.setWidth 29) := by
  rw [encodeCanId, if_pos (isPdu1_iff.mpr h), if_pos h0]

theorem encodeCanId_pdu1_bad (h : (g.extractLsb' 8 8).toNat < 240) (h0 : g.extractLsb' 0 8 ≠ 0) :
    encodeCanId p g a d = .error .invalidAddressing := by
  rw [encodeCanId, if_pos (isPdu1_iff.mpr h), if_neg h0]

theorem encodeCanId_pdu2 (h : ¬ (g.extractLsb' 8 8).toNat < 240) :
    encodeCanId p g a d = .ok (p.setWidth 29 <<< 26 ||| g.setWidth 29 <<< 8 ||| a.setWidth 29) := by
  rw [encodeCanId, if_neg (mt isPdu1_iff.mp h)]

/-- Encode answers an identifier or InvalidAddressing, and says which (R77). -/
theorem encodeCanId_cases :
    ((g.extractLsb' 8 8).toNat < 240 ∧ g.extractLsb' 0 8 ≠ 0 ∧ encodeCanId p g a d = .error .invalidAddressing) ∨
    ∃ id, encodeCanId p g a d = .ok id := by
  by_cases h : (g.extractLsb' 8 8).toNat < 240
  · by_cases h0 : g.extractLsb' 0 8 = 0
    · exact .inr ⟨_, encodeCanId_pdu1 h h0⟩
    · exact .inl ⟨h, h0, encodeCanId_pdu1_bad h h0⟩
  · exact .inr ⟨_, encodeCanId_pdu2 h⟩

theorem decodeCanId_pdu1 (h : (id.extractLsb' 16 8).toNat < 240) :
    decodeCanId id = ⟨id.extractLsb' 26 3, pgnOf (id.extractLsb' 24 1) (id.extractLsb' 16 8) 0, id.extractLsb' 0 8,
      id.extractLsb' 8 8⟩ := by
  simp only [decodeCanId, if_pos h]

theorem decodeCanId_pdu2 (h : ¬ (id.extractLsb' 16 8).toNat < 240) :
    decodeCanId id = ⟨id.extractLsb' 26 3, pgnOf (id.extractLsb' 24 1) (id.extractLsb' 16 8)
      (id.extractLsb' 8 8), id.extractLsb' 0 8, 0xFF⟩ := by
  simp only [decodeCanId, if_neg h, broadcast]

end Sys2Proof.Machine

namespace Sys2Proof

/-- Two values of one width with the same bits are the same value. -/
theorem eq_of_bits {n : Nat} {x y : BitVec n} (h : ∀ i < n, x.getLsbD i = y.getLsbD i) : x = y :=
  BitVec.eq_of_getLsbD_eq h

theorem field_bit (cw : CommandWord) (lo n i : Nat) (h : i < n) : (field cw lo n).getLsbD i = cw.getLsbD (lo + i) := by
  simp [field, h]

/-- A row's word is decoded by reading the row's fields (R56). -/
theorem decode_of_row {cw : CommandWord} {row : OpcodeRow} (hr : rowOf? (opcodeOf cw) = some row)
    (hm : cw &&& row.mask = row.value) : decode cw = .ok (row.read cw) := by
  simp [decode, hr, hm]

/-- What the decoder accepts is a row's reading of a word that selects the row (R56). -/
theorem decode_cases {cw : CommandWord} {i : Instr} (h : decode cw = .ok i) :
    ∃ row, rowOf? (opcodeOf cw) = some row ∧ cw &&& row.mask = row.value ∧ i = row.read cw := by
  unfold decode at h
  split at h
  · simp at h
  · rename_i row hr
    split at h
    · rename_i hm
      exact ⟨row, hr, hm, by simpa using h.symm⟩
    · simp at h

/-- A row that an opcode names is a row of the map, with that opcode. -/
theorem rowOf?_cases {op : BitVec 8} {row : OpcodeRow} (h : rowOf? op = some row) : row ∈ opcodeRows ∧ row.opcode = op := by
  unfold rowOf? at h
  exact ⟨List.mem_of_find?_eq_some h, by simpa using List.find?_some h⟩

end Sys2Proof
end

