-- ==== Sys2Proof/Laws/DiagConfig.lean ====
section
/-! SUPPORT. The diagnostic line's parts: digits written and read, the two readers of the grammar, and the registers
(R76, R105, R106, R23, R109). -/

namespace Sys2Proof.Machine

variable {n : Nat} {v : BitVec n} {text rest bytes : List Byte} {k acc x : Nat} {b : Byte} {reg : BitVec 8}

/-! ## Digits -/

theorem hexDigit_eq (v : BitVec 4) : hexDigit v = upperHex v.toNat := by revert v; decide

@[simp] theorem hexValue_hexDigit (v : BitVec 4) : hexValue (hexDigit v) = some v := by revert v; decide

/-- A digit without lower case is the one that is written (R107). -/
theorem eq_hexDigit_of_hexValue {v : BitVec 4} (h : hexValue b = some v) (hb : b.toNat < 0x61) : b = hexDigit v := by
  revert b v; decide +kernel

theorem isHex_iff {d : Nat} : IsHex b d ↔ ∃ v, hexValue b = some v ∧ v.toNat = d := by
  have hb : b.toNat < 256 := b.isLt
  unfold IsHex hexValue
  simp only
  split_ifs <;> simp <;> omega

@[simp] theorem hexDigits_length : (hexDigits v k).length = k := by simp [hexDigits]

theorem hexDigits_getElem? {j : Nat} (h : j < k) :
    (hexDigits v k)[j]? = some (upperHex (v.toNat / 16 ^ (k - 1 - j) % 16)) := by
  simp only [hexDigits, List.getElem?_map, List.getElem?_range h, Option.map_some, hexDigit_eq]
  congr 2
  rw [BitVec.extractLsb'_toNat, Nat.shiftRight_eq_div_pow, pow_mul]
  norm_num

theorem isHexPair_iff {hi lo : Byte} : IsHexPair (hi, lo) b ↔ ∃ h l, hexValue hi = some h ∧ hexValue lo = some l ∧ h ++ l = b := by
  constructor
  · rintro ⟨h, l, h1, h2, h3⟩
    obtain ⟨x, hx, rfl⟩ := isHex_iff.mp h1
    obtain ⟨y, hy, rfl⟩ := isHex_iff.mp h2
    refine ⟨x, y, hx, hy, BitVec.eq_of_toNat_eq ?_⟩
    rw [BitVec.toNat_append, h3, ← Nat.shiftLeft_add_eq_or_of_lt y.isLt, Nat.shiftLeft_eq]; omega
  · rintro ⟨x, y, hx, hy, rfl⟩
    refine ⟨x.toNat, y.toNat, isHex_iff.mpr ⟨x, hx, rfl⟩, isHex_iff.mpr ⟨y, hy, rfl⟩, ?_⟩
    rw [BitVec.toNat_append, ← Nat.shiftLeft_add_eq_or_of_lt y.isLt, Nat.shiftLeft_eq]; omega

/-! ## The two readers of the grammar (R106) -/

theorem parseDigits_iff : parseDigits k acc text = some (x, rest) ↔
    ∃ digits values, text = digits ++ rest ∧ digits.length = k ∧ List.Forall₂ IsHex digits values ∧
      values.foldl (fun v d => 16 * v + d) acc = x := by
  induction k generalizing acc text with
  | zero =>
    simp only [parseDigits, Option.some.injEq, Prod.mk.injEq]
    constructor
    · rintro ⟨rfl, rfl⟩; exact ⟨[], [], rfl, rfl, .nil, rfl⟩
    · rintro ⟨ds, vs, rfl, hl, hf, rfl⟩
      obtain rfl := List.eq_nil_of_length_eq_zero hl
      cases hf; exact ⟨rfl, rfl⟩
  | succ k ih =>
    cases text with
    | nil =>
      simp only [parseDigits, reduceCtorEq, false_iff]
      rintro ⟨ds, vs, h, hl, -⟩
      cases ds <;> simp at hl h
    | cons b text =>
      simp only [parseDigits]
      constructor
      · intro h
        split at h
        · simp at h
        · rename_i x hx
          obtain ⟨ds, vs, rfl, hl, hf, hv⟩ := ih.mp h
          exact ⟨b :: ds, x.toNat :: vs, rfl, by simp [hl], .cons (isHex_iff.mpr ⟨x, hx, rfl⟩) hf, hv⟩
      · rintro ⟨ds, vs, h, hl, hf, hv⟩
        cases hf with
        | nil => simp at hl
        | cons hx hf =>
          obtain ⟨w, hw, rfl⟩ := isHex_iff.mp hx
          simp only [List.cons_append, List.cons.injEq] at h
          obtain ⟨rfl, rfl⟩ := h
          simp only [hw]
          exact ih.mpr ⟨_, _, rfl, by simpa using hl, hf, hv⟩

theorem parseTail_iff : parseTail k text = some bytes ↔
    ∃ pairs : List (Byte × Byte), text = pairs.flatMap (fun p => [0x20, p.1, p.2]) ++ [0x0D, 0x0A] ∧
      bytes.length ≤ k ∧ List.Forall₂ IsHexPair pairs bytes := by
  induction k generalizing text bytes with
  | zero =>
    unfold parseTail
    constructor
    · intro h
      split at h
      · simp only [Option.some.injEq] at h; subst h; exact ⟨[], ‹_›, by simp, .nil⟩
      · simp at h
    · rintro ⟨ps, rfl, hl, hf⟩
      obtain rfl := List.eq_nil_of_length_eq_zero (Nat.le_zero.mp hl)
      cases hf; rfl
  | succ k ih =>
    unfold parseTail
    constructor
    · intro h
      split at h
      · simp only [Option.some.injEq] at h; subst h; exact ⟨[], ‹_›, by simp, .nil⟩
      · split at h
        · rename_i k' sp hi lo rest hk _
          obtain rfl : k = k' := by simpa using hk
          split at h
          · rename_i hsp; subst hsp
            split at h
            · rename_i x y bs hx hy hb
              injection h with h; subst h
              obtain ⟨ps, rfl, hl, hf⟩ := ih.mp hb
              exact ⟨(hi, lo) :: ps, by simp, by simpa using hl, .cons (isHexPair_iff.mpr ⟨x, y, hx, hy, rfl⟩) hf⟩
            · simp at h
          · simp at h
        · simp at h
    · rintro ⟨ps, rfl, hl, hf⟩
      cases hf with
      | nil => rfl
      | @cons p b ps bytes hp hf =>
        obtain ⟨x, y, hx, hy, rfl⟩ := isHexPair_iff.mp (show IsHexPair (p.1, p.2) b from hp)
        have hb : parseTail k (ps.flatMap (fun p => [0x20, p.1, p.2]) ++ [0x0D, 0x0A]) = some bytes :=
          ih.mpr ⟨ps, rfl, by simpa using hl, hf⟩
        rw [if_neg (by simp [lineEnd])]
        simp only [List.flatMap_cons, List.cons_append, List.nil_append, hx, hy, hb, if_true]

/-- PARSE_LINE's only failure (R106). -/
theorem parseLine_error {st : Status} (h : parseLine text = .error st) : st = .malformedLine := by
  unfold parseLine at h
  repeat' split at h
  all_goals simp at h
  all_goals exact h.symm

/-- A parsed frame has 0 to 8 data bytes (R65, R106). -/
theorem parseLine_length {f : Frame} (h : parseLine text = .ok f) : f.data.length ≤ 8 := by
  unfold parseLine at h
  repeat' split at h
  all_goals simp at h
  subst h
  exact (parseTail_iff.mp ‹_›).choose_spec.2.1

/-! ## Registers (R23) -/

theorem cfgRegOf_none (h : 7 < reg.toNat) : cfgRegOf reg = none := by
  unfold cfgRegOf; split <;> first | rfl | omega

theorem cfgRegOf_localAddr (h : cfgRegOf reg = some .localAddr) : reg = 0 := by
  unfold cfgRegOf at h
  split at h <;> simp at h
  exact BitVec.eq_of_toNat_eq ‹_›

end Sys2Proof.Machine
end

