-- ==== Sys2Proof/Laws/FastPacket.lean ====
section
/-! SUPPORT. What each part of ACCEPT can do, said once (R86 to R91). -/

namespace Sys2Proof.Machine

variable {id : CanId} {e : Entry} {c : Nat} {s t : State}

/-- Every ending of ACCEPT's parts: a result of STATUS OK with a verdict, and a table in which only `id` may differ. -/
def AcceptEnds (id : CanId) (s t : State) : Prop :=
  ∃ (tbl : Memory) (r : Result), t = (s.setTable tbl).respond r ∧
    ((∃ v, r = Result.verdictOnly v ∧ v ≠ .completed) ∨ ∃ m, r = Result.completed m) ∧
    (tbl = s.table ∨ tbl = s.table.erase id ∨ ∃ e, tbl = s.table.set id e)

theorem setTable_self : s.setTable s.table = s := rfl

theorem acceptFirst_cases (h : acceptFirst id s = .next t) :
    (∃ r, t = (s.setTable (s.table.erase id)).respond r ∧
      ((∃ v, r = Result.verdictOnly v ∧ v ≠ .completed ∧ v ≠ .inProgress) ∨ ∃ m, r = Result.completed m)) ∨
    (6 < declaredLength s.inp.dp ∧ declaredLength s.inp.dp ≤ 223 ∧
      (s.table.erase id).hasSlot s.bind.numFpSlots = true ∧
      t = (s.setTable (s.table.set id (startEntry s.inp.dp))).respond (Result.verdictOnly .inProgress)) := by
  have hset : (s.table.erase id).set id (startEntry s.inp.dp) = s.table.set id (startEntry s.inp.dp) := by
    rw [Memory.set, erase_of_get_none get_erase_self, Memory.set]
  simp only [acceptFirst, fpMaxLen, fpFirstChunk, complete_eq] at h
  split at h
  · exact .inl ⟨_, by simpa using h.symm, .inl ⟨_, rfl, by simp⟩⟩
  · split at h
    · exact .inl ⟨_, by simpa using h.symm, .inr ⟨_, rfl⟩⟩
    · split at h
      · refine .inr ⟨by omega, by omega, ‹_›, ?_⟩
        rw [← hset]; simpa using h.symm
      · exact .inl ⟨_, by simpa using h.symm, .inl ⟨_, rfl, by simp⟩⟩

theorem acceptNext_cases (h : acceptNext id e c s = .next t) :
    (∃ r, t = (s.setTable (s.table.erase id)).respond r ∧
      ((∃ v, r = Result.verdictOnly v ∧ v ≠ .completed ∧ v ≠ .inProgress) ∨ ∃ m, r = Result.completed m)) ∨
    (c = e.last + 1 ∧ e.canWrite e.acc ((s.inp.dp.drop 1).take 7).length = true ∧
      e.acc + ((s.inp.dp.drop 1).take 7).length < e.total ∧
      t = (s.setTable (s.table.set id (e.append ((s.inp.dp.drop 1).take 7) c))).respond
        (Result.verdictOnly .inProgress)) := by
  simp only [acceptNext, fpChunk, complete_eq, append_acc, append_total, ge_iff_le] at h
  split at h
  · split at h
    · split at h
      · exact .inl ⟨_, by simpa using h.symm, .inr ⟨_, rfl⟩⟩
      · exact .inr ⟨‹_›, ‹_›, by omega, by simpa using h.symm⟩
    · simp at h
  · exact .inl ⟨_, by simpa using h.symm, .inl ⟨_, rfl, by simp⟩⟩

theorem acceptFirst_ends (h : acceptFirst id s = .next t) : AcceptEnds id s t := by
  rcases acceptFirst_cases h with ⟨r, rfl, hr⟩ | ⟨-, -, -, rfl⟩
  · refine ⟨_, r, rfl, ?_, .inr (.inl rfl)⟩
    rcases hr with ⟨v, rfl, hv, -⟩ | hm
    · exact .inl ⟨v, rfl, hv⟩
    · exact .inr hm
  · exact ⟨_, _, rfl, .inl ⟨_, rfl, by simp⟩, .inr (.inr ⟨_, rfl⟩)⟩

theorem acceptNext_ends (h : acceptNext id e c s = .next t) : AcceptEnds id s t := by
  rcases acceptNext_cases h with ⟨r, rfl, hr⟩ | ⟨-, -, -, rfl⟩
  · refine ⟨_, r, rfl, ?_, .inr (.inl rfl)⟩
    rcases hr with ⟨v, rfl, hv, -⟩ | hm
    · exact .inl ⟨v, rfl, hv⟩
    · exact .inr hm
  · exact ⟨_, _, rfl, .inl ⟨_, rfl, by simp⟩, .inr (.inr ⟨_, rfl⟩)⟩

theorem acceptIdle_cases (h : acceptIdle id s = .next t) :
    (isFastPacket s.bind.model (decodeCanId id).pgn = true ∧ counterOf s.inp.dp = 0 ∧ 8 ≤ s.inp.dp.length ∧
      acceptFirst id s = .next t) ∨
    (∃ v, v ≠ .completed ∧ v ≠ .inProgress ∧ t = s.respond (Result.verdictOnly v)) ∨
    (isFastPacket s.bind.model (decodeCanId id).pgn = false ∧
      t = s.respond (Result.completed (messageOf id s.inp.dp))) := by
  simp only [acceptIdle, maxDlc, complete_eq] at h
  split at h
  · split at h
    · refine .inr (.inl ⟨.discarded .shortFrame, nofun, nofun, ?_⟩); simpa using h.symm
    · split at h
      · exact .inl ⟨‹_›, ‹_›, by omega, h⟩
      · refine .inr (.inl ⟨.discarded .orphan, nofun, nofun, ?_⟩); simpa using h.symm
  · rename_i hf
    exact .inr (.inr ⟨by simpa using hf, by simpa using h.symm⟩)

theorem acceptBusy_cases (h : acceptBusy id e s = .next t) :
    (s.inp.dp.length < 8 ∧
      t = (s.setTable (s.table.erase id)).respond (Result.verdictOnly (.discarded .shortFrame))) ∨
    (8 ≤ s.inp.dp.length ∧ counterOf s.inp.dp = 0 ∧ acceptFirst id s = .next t) ∨
    (8 ≤ s.inp.dp.length ∧ counterOf s.inp.dp ≠ 0 ∧ acceptNext id e (counterOf s.inp.dp) s = .next t) := by
  simp only [acceptBusy, maxDlc, complete_eq] at h
  split at h
  · exact .inl ⟨‹_›, by simpa using h.symm⟩
  · split at h
    · exact .inr (.inl ⟨by omega, ‹_›, h⟩)
    · exact .inr (.inr ⟨by omega, ‹_›, h⟩)

theorem acceptIdle_ends (h : acceptIdle id s = .next t) : AcceptEnds id s t := by
  rcases acceptIdle_cases h with ⟨-, -, -, h⟩ | ⟨v, hv, -, rfl⟩ | ⟨-, rfl⟩
  · exact acceptFirst_ends h
  · exact ⟨s.table, _, rfl, .inl ⟨v, rfl, hv⟩, .inl rfl⟩
  · exact ⟨s.table, _, rfl, .inr ⟨_, rfl⟩, .inl rfl⟩

theorem acceptBusy_ends (h : acceptBusy id e s = .next t) : AcceptEnds id s t := by
  rcases acceptBusy_cases h with ⟨-, rfl⟩ | ⟨-, -, h⟩ | ⟨-, -, h⟩
  · exact ⟨_, _, rfl, .inl ⟨_, rfl, by simp⟩, .inr (.inl rfl)⟩
  · exact acceptFirst_ends h
  · exact acceptNext_ends h

/-- ACCEPT raises IllegalOperation, or ends as one of its parts does. -/
theorem execAccept_cases (h : execAccept id s = .next t) :
    t = s.respond (Result.raised .illegalOperation) ∨
    (s.inp.port = .rx ∧ s.inp.dp.length ≤ 8 ∧
      ((s.table.get id = none ∧ acceptIdle id s = .next t) ∨
        ∃ e, s.table.get id = some e ∧ acceptBusy id e s = .next t)) := by
  unfold execAccept at h
  rcases onRxPort_cases h with ⟨hp, h⟩ | h
  · rcases withFrameDp_cases h with ⟨hl, h⟩ | h
    · refine .inr ⟨hp, hl, ?_⟩
      split at h
      · exact .inl ⟨‹_›, h⟩
      · exact .inr ⟨_, ‹_›, h⟩
    · exact .inl h
  · exact .inl h

/-- ACCEPT raises IllegalOperation, or gives a verdict and touches no entry but its identifier's. -/
theorem execAccept_ends (h : execAccept id s = .next t) :
    t = s.respond (Result.raised .illegalOperation) ∨ AcceptEnds id s t := by
  rcases execAccept_cases h with h | ⟨-, -, ⟨-, h⟩ | ⟨e, -, h⟩⟩
  · exact .inl h
  · exact .inr (acceptIdle_ends h)
  · exact .inr (acceptBusy_ends h)

/-- What ACCEPT does once its port and DP are in order. -/
theorem execAccept_of (hp : s.inp.port = .rx) (hl : s.inp.dp.length ≤ 8) :
    execAccept id s = match s.table.get id with
      | none => acceptIdle id s
      | some e => acceptBusy id e s :=
  (onRxPort_of hp).trans (withFrameDp_of hl)

/-- The counter is the low five bits of byte 0 (R68). -/
theorem counterOf_cons (h : Byte) (data : List Byte) : counterOf (h :: data) = h.toNat % 32 := by
  simp [counterOf]

end Sys2Proof.Machine
end

