-- ==== Sys2Proof/Laws/GroupFunction.lean ====
section
/-! SUPPORT. The Group Function builder's parts: byte packing, the payloads, the field lookup, and how the two BUILD commands
end (R70, R71, R97 to R103). -/

namespace Sys2Proof.Machine

variable {c : Pgn} {d : Addr} {f : BitVec 8} {raw : BitVec 64} {w : Nat} {s t : State} {m : FieldModel} {fd : FieldDesc}

/-! ## Packing -/

/-- Below the width, the value's own bits; above it, none (R99). -/
theorem lowBits_getLsbD {j : Nat} (hj : j < 64) :
    (lowBits raw w).getLsbD j = (decide (j < w) && raw.getLsbD j) := by
  simp only [lowBits, BitVec.getLsbD_and, BitVec.getLsbD_not, BitVec.getLsbD_shiftLeft, BitVec.getLsbD_allOnes]
  by_cases h : j < w
  · simp [h, hj]
  · simp [h, hj, show j - w < 64 by omega]

@[simp] theorem packLE_length : (packLE raw w).length = (w + 7) / 8 := by simp [packLE]

/-- Byte `k` of the packed value (R102). -/
theorem packLE_getD {k : Nat} (h : k < (w + 7) / 8) :
    (packLE raw w).getD k 0 = byteAt (raw ||| BitVec.allOnes 64 <<< w) k := by
  simp only [packLE]
  rw [List.getD_eq_getElem?_getD, List.getElem?_map, List.getElem?_range h]
  rfl

/-- The PGN bytes of both payloads (R39, R98). -/
theorem le24_pgn : le24 (c.setWidth 24) = pgnBytes c := by
  simp only [le24, pgnBytes, byteAt]
  refine List.cons_eq_cons.mpr ⟨?_, List.cons_eq_cons.mpr ⟨?_, List.cons_eq_cons.mpr ⟨?_, rfl⟩⟩⟩ <;>
    exact eq_of_bits (by intro j hj; interval_cases j <;> simp)

theorem pgnBytes_length : (pgnBytes c).length = 3 := rfl

theorem identificationPairs_eq : identificationPairs = [0x01, 0xE4, 0x07, 0x03, 0x04] := rfl

/-! ## The field lookup (R100) -/

theorem resolveField_of (hf : f ≠ 255) (h : fieldSchema m c f = some fd) (h1 : 1 ≤ fd.width) (h2 : fd.width ≤ 64) :
    resolveField m c f = .ok fd := by
  rw [resolveField, if_neg hf, h]
  exact if_neg (by omega)

theorem resolveField_ok (h : resolveField m c f = .ok fd) :
    f ≠ 255 ∧ fieldSchema m c f = some fd ∧ 1 ≤ fd.width ∧ fd.width ≤ 64 := by
  unfold resolveField at h
  repeat' split at h
  all_goals simp at h
  subst h
  exact ⟨‹_›, ‹_›, by omega, by omega⟩

theorem resolveField_error {st : Status} (h : resolveField m c f = .error st) : st = .schemaResolutionError := by
  unfold resolveField at h
  repeat' split at h
  all_goals simp at h
  all_goals exact h.symm

/-! ## The commands -/

/-- BUILD_REQUEST raises, or answers the message of R70 and R72. -/
theorem execBuildRequest_cases (h : execBuildRequest c s = .next t) :
    (∃ st, st ≠ .ok ∧ t = s.respond (Result.raised st)) ∨
    ∃ a, s.inp.dp = [] ∧ s.localAddr = some a ∧
      t = s.respond { Result.ok with msg := some (groupFunctionMessage s.bind a broadcast (requestPayload c)) } := by
  rcases withEmptyDp_cases h with ⟨hd, h⟩ | rfl
  · split at h <;> simp only [raise_eq, complete_eq, Host.Outcome.next.injEq] at h
    · exact .inl ⟨_, by simp, h.symm⟩
    · exact .inr ⟨_, hd, ‹_›, h.symm⟩
  · exact .inl ⟨_, by simp, rfl⟩

/-- BUILD_COMMAND raises, or answers the message of R71 and R72 for a field of width 1 to 64. -/
theorem execBuildCommand_cases (h : execBuildCommand c d f s = .next t) :
    (∃ st, st ≠ .ok ∧ t = s.respond (Result.raised st)) ∨
    ∃ a fd, s.inp.dp = [] ∧ s.localAddr = some a ∧ resolveField s.bind.model c f = .ok fd ∧
      t = s.respond { Result.ok with
        msg := some (groupFunctionMessage s.bind a d (commandPayload s.bind.cmdPrioByte c f
          (lowBits (quantize s.bind.model fd s.inp.vp) fd.width) fd.width)) } := by
  rcases withEmptyDp_cases h with ⟨hd, h⟩ | rfl
  · split at h
    · simp only [raise_eq, Host.Outcome.next.injEq] at h; exact .inl ⟨_, by simp, h.symm⟩
    · split at h <;> simp only [raise_eq, complete_eq, Host.Outcome.next.injEq] at h
      · rename_i hr; exact .inl ⟨_, by simp [resolveField_error hr], h.symm⟩
      · exact .inr ⟨_, _, hd, ‹_›, ‹_›, h.symm⟩
  · exact .inl ⟨_, by simp, rfl⟩

end Sys2Proof.Machine
end

