-- ==== Sys2Proof/Laws/PerInstr.lean ====
section
/-! SUPPORT. A family of lemmas, one for each constructor: the opcode of the encoder's word names a row of the map (R56). -/

namespace Sys2Proof

/-- A word whose low byte is `op` has opcode `op` (R54). -/
theorem opcodeOf_of_bits {op : BitVec 8} {x : CommandWord} (h : ∀ j < 8, x.getLsbD j = op.getLsbD j) :
    opcodeOf x = op :=
  eq_of_bits fun j hj => by rw [opcodeOf, field_bit _ _ _ _ hj, Nat.zero_add, h j hj]

theorem encodeOp_bit (op : BitVec 8) {j : Nat} (hj : j < 8) : (encodeOp op).getLsbD j = op.getLsbD j := by
  simp [encodeOp, show j < 64 by omega]

/-- No operand of a format reaches the opcode byte (R55). -/
theorem shifted_bit {n : Nat} (x : BitVec n) (k : Nat) {j : Nat} (hj : j < 8) (hk : 8 ≤ k) :
    (x.setWidth 64 <<< k).getLsbD j = false := by
  simp [show j < k by omega]

namespace Laws.EncodeSelectsRow

/-- The opcode of the word of `i` names a row of the opcode map. -/
def Statement (i : Instr) : Prop := ∃ row ∈ opcodeRows, rowOf? (opcodeOf (encode i)) = some row

/-- A row that its own opcode finds. -/
theorem of_opcode {i : Instr} {row : OpcodeRow} (h : rowOf? row.opcode = some row)
    (ho : ∀ j < 8, (encode i).getLsbD j = row.opcode.getLsbD j) : Statement i :=
  ⟨row, (rowOf?_cases h).1, by rw [opcodeOf_of_bits ho, h]⟩

theorem nop : Statement .nop := of_opcode (row := opcodeRows[0]) rfl fun _ hj => encodeOp_bit _ hj

theorem fpFlush : Statement .fpFlush := of_opcode (row := opcodeRows[5]) rfl fun _ hj => encodeOp_bit _ hj

theorem parseLine : Statement .parseLine := of_opcode (row := opcodeRows[9]) rfl fun _ hj => encodeOp_bit _ hj

theorem encodeId (pri : Pri) (pgn : Pgn) (src dst : Addr) : Statement (.encodeId pri pgn src dst) :=
  of_opcode (row := opcodeRows[1]) rfl fun j hj => by
    simp [encode, encodeHdr, encodeOp_bit _ hj, shifted_bit _ _ hj, opcodeRows]

theorem decodeId (id : CanId) : Statement (.decodeId id) :=
  of_opcode (row := opcodeRows[2]) rfl fun j hj => by
    simp [encode, encodeIdWord, encodeOp_bit _ hj, shifted_bit _ _ hj, opcodeRows]

theorem segment (pri : Pri) (pgn : Pgn) (src dst : Addr) : Statement (.segment pri pgn src dst) :=
  of_opcode (row := opcodeRows[3]) rfl fun j hj => by
    simp [encode, encodeHdr, encodeOp_bit _ hj, shifted_bit _ _ hj, opcodeRows]

theorem accept (id : CanId) : Statement (.accept id) :=
  of_opcode (row := opcodeRows[4]) rfl fun j hj => by
    simp [encode, encodeIdWord, encodeOp_bit _ hj, shifted_bit _ _ hj, opcodeRows]

theorem buildRequest (cpgn : Pgn) : Statement (.buildRequest cpgn) :=
  of_opcode (row := opcodeRows[6]) rfl fun j hj => by
    simp [encode, encodeOp_bit _ hj, shifted_bit _ _ hj, opcodeRows]

theorem buildCommand (cpgn : Pgn) (dst : Addr) (fidx : BitVec 8) : Statement (.buildCommand cpgn dst fidx) :=
  of_opcode (row := opcodeRows[7]) rfl fun j hj => by
    simp [encode, encodeOp_bit _ hj, shifted_bit _ _ hj, opcodeRows]

theorem formatLine (id : CanId) : Statement (.formatLine id) :=
  of_opcode (row := opcodeRows[8]) rfl fun j hj => by
    simp [encode, encodeIdWord, encodeOp_bit _ hj, shifted_bit _ _ hj, opcodeRows]

theorem cfgRead (reg : BitVec 8) : Statement (.cfgRead reg) :=
  of_opcode (row := opcodeRows[10]) rfl fun j hj => by
    simp [encode, encodeOp_bit _ hj, shifted_bit _ _ hj, opcodeRows]

theorem cfgWrite (reg : BitVec 8) (value : BitVec 32) : Statement (.cfgWrite reg value) :=
  of_opcode (row := opcodeRows[11]) rfl fun j hj => by
    simp [encode, encodeOp_bit _ hj, shifted_bit _ _ hj, opcodeRows]

end Laws.EncodeSelectsRow

end Sys2Proof
end

