-- ==== Sys2Proof/Laws/Segment.lean ====
section
/-! SUPPORT. The frames SEGMENT emits, and running ACCEPT over a list of frames (R66 to R69, R84). -/

namespace Sys2Proof.Machine

variable {id : CanId} {payload : List Byte} {s t : State} {p : Pri} {g : Pgn} {a d : Addr}

/-- The stream fills whole frames (R69). -/
theorem fpStream_length : (fpStream payload).length = 7 * ((payload.length + 7) / 7) := by
  simp [fpStream, streamPad]; omega

/-- A stream of whole chunks is its chunks, one after another (R67). -/
theorem flatMap_chunks {l : List Byte} {k : Nat} (h : l.length = 7 * k) :
    ((List.range k).flatMap fun i => (l.drop (7 * i)).take 7) = l := by
  induction k generalizing l with
  | zero => obtain rfl := List.eq_nil_of_length_eq_zero h; rfl
  | succ k ih =>
    have hk := ih (l := l.drop 7) (by simp; omega)
    simp only [List.drop_drop, show ∀ i, 7 + 7 * i = 7 * (i + 1) by intro i; ring] at hk
    simp only [List.range_succ_eq_map, List.flatMap_cons, List.flatMap_map, Nat.succ_eq_add_one, hk]
    simp

/-- The header byte of frame `i` (R68). -/
theorem fpHeader_eq {i : Nat} (h : i < 32) : fpHeaderBase ||| BitVec.ofNat 8 i = BitVec.ofNat 8 (0x40 + i) := by
  interval_cases i <;> rfl

theorem segmentFrames_of_le (h : payload.length ≤ 8) : segmentFrames id payload = [⟨id, payload⟩] := by
  rw [segmentFrames]; exact if_pos h

theorem segmentFrames_of_gt (h : 9 ≤ payload.length) :
    segmentFrames id payload =
      (List.range ((payload.length + 7) / 7)).map fun i => ⟨id, fpFrameData (fpStream payload) i⟩ := by
  rw [segmentFrames, if_neg (show ¬ payload.length ≤ 8 by omega)]
  simp only [fpStream_length, fpChunk, Nat.mul_div_cancel_left _ (show 0 < 7 by omega)]

/-- No frame carries more than 8 bytes (R65). -/
theorem segmentFrames_length {f : Frame} (h : f ∈ segmentFrames id payload) : f.data.length ≤ 8 := by
  unfold segmentFrames at h
  split at h
  · simp only [List.mem_singleton] at h; subst h; assumption
  · simp only [List.mem_map] at h
    obtain ⟨i, _, rfl⟩ := h
    simp [fpFrameData]

/-- SEGMENT of a payload that fits, on an identifier Encode gives (R84). -/
theorem execSegment_of (h : s.inp.dp.length ≤ 223) (hid : encodeCanId p g a d = .ok id) :
    execSegment p g a d s = .next (s.respond { Result.ok with frames := segmentFrames id s.inp.dp }) := by
  rw [execSegment, if_neg (show ¬ s.inp.dp.length > 223 by omega), hid]
  rfl

theorem acceptAll_cons {f : Frame} {fs : List Frame} (h : execAccept f.id (s.withInput .rx f.data) = .next t) :
    acceptAll (f :: fs) s = acceptAll fs t := by
  have hx : exec (.accept f.id) (s.withInput .rx f.data) = .next t := h
  simp only [acceptAll, hx]

end Sys2Proof.Machine
end

