-- ==== Sys2Proof/Laws/Step.lean ====
section
/-! SUPPORT. The inversion lemmas of `exec` and `step`: every way a command can end, and every way a step can go. -/

namespace Sys2Proof.Machine

/-- Every way a command ends that ends in a next state: a raise, a result that changes nothing else, LOCAL_ADDR written,
T flushed, or ACCEPT's own ends (R29, R45, R112). -/
def Ends (i : Instr) (s t : State) : Prop :=
  (∃ st, st ≠ Status.ok ∧ t = s.respond (Result.raised st)) ∨
  (∃ r, t = s.respond r ∧ r.status = Status.code .ok ∧ r.verdict = none ∧ ∀ f ∈ r.frames, f.data.length ≤ 8) ∨
  (∃ v, i = .cfgWrite 0 v ∧ v.toNat < 256 ∧ t = (s.setLocalAddr (v.extractLsb' 0 8)).respond Result.ok) ∨
  (i = .fpFlush ∧ s.inp.port = .rx ∧ t = (s.setTable []).respond Result.ok) ∨
  (∃ id, i = .accept id ∧ s.inp.port = .rx ∧ AcceptEnds id s t)

variable {i : Instr} {s t : State}

theorem Ends.of_raise {st : Status} (hst : st ≠ .ok) (h : t = s.respond (Result.raised st)) : Ends i s t :=
  .inl ⟨st, hst, h⟩

theorem Ends.of_illegal (h : t = s.respond (Result.raised .illegalOperation)) : Ends i s t := .of_raise (by simp) h

theorem Ends.of_result {r : Result} (h : t = s.respond r) (hs : r.status = Status.code .ok) (hv : r.verdict = none)
    (hf : ∀ f ∈ r.frames, f.data.length ≤ 8) : Ends i s t := .inr (.inl ⟨r, h, hs, hv, hf⟩)

/-- CFG_WRITE's checks, inverted (R109). -/
theorem execCfgWrite_cases {reg : BitVec 8} {v : BitVec 32} (h : execCfgWrite reg v s = .next t) :
    (∃ st, st ≠ .ok ∧ t = s.respond (Result.raised st)) ∨
    reg = 0 ∧ v.toNat < 256 ∧ t = (s.setLocalAddr (v.extractLsb' 0 8)).respond Result.ok := by
  rcases withEmptyDp_cases h with ⟨-, h⟩ | rfl
  · split at h
    · simp only [raise_eq, Host.Outcome.next.injEq] at h; exact .inl ⟨_, by simp, h.symm⟩
    · rename_i hr
      split at h <;> simp only [raise_eq, complete_eq, Host.Outcome.next.injEq] at h
      · rename_i hv
        have hv' := congrArg BitVec.toNat hv
        have hlt := v.isLt
        simp [Nat.shiftRight_eq_div_pow] at hv'
        exact .inr ⟨cfgRegOf_localAddr hr, by omega, h.symm⟩
      · exact .inl ⟨_, by simp, h.symm⟩
    · simp only [raise_eq, Host.Outcome.next.injEq] at h; exact .inl ⟨_, by simp, h.symm⟩
  · exact .inl ⟨_, by simp, rfl⟩

theorem exec_ends (h : exec i s = .next t) : Ends i s t := by
  cases i with
  | nop =>
    rcases withEmptyDp_cases h with ⟨-, h⟩ | h
    · simp only [complete_eq, Host.Outcome.next.injEq] at h; exact .of_result h.symm rfl rfl (by simp)
    · exact .of_illegal h
  | encodeId p g a d =>
    rcases withEmptyDp_cases h with ⟨-, h⟩ | h
    · rcases @encodeCanId_cases p g a d with ⟨-, -, hx⟩ | ⟨id, hx⟩ <;>
        simp only [hx, raise_eq, complete_eq, Host.Outcome.next.injEq] at h
      · exact .of_raise (by simp) h.symm
      · exact .of_result h.symm rfl rfl (by simp)
    · exact .of_illegal h
  | decodeId id =>
    rcases withEmptyDp_cases h with ⟨-, h⟩ | h
    · simp only [complete_eq, Host.Outcome.next.injEq] at h; exact .of_result h.symm rfl rfl (by simp)
    · exact .of_illegal h
  | segment p g a d =>
    simp only [exec, execSegment] at h
    split at h
    · simp only [raise_eq, Host.Outcome.next.injEq] at h; exact .of_raise (by simp) h.symm
    · rcases @encodeCanId_cases p g a d with ⟨-, -, hx⟩ | ⟨id, hx⟩ <;>
        simp only [hx, raise_eq, complete_eq, Host.Outcome.next.injEq] at h
      · exact .of_raise (by simp) h.symm
      · exact .of_result h.symm rfl rfl fun _ => segmentFrames_length
  | accept id =>
    rcases execAccept_cases h with h | ⟨hp, -, hx⟩
    · exact .of_illegal h
    · refine .inr (.inr (.inr (.inr ⟨id, rfl, hp, ?_⟩)))
      rcases hx with ⟨-, hx⟩ | ⟨e, -, hx⟩
      · exact acceptIdle_ends hx
      · exact acceptBusy_ends hx
  | fpFlush =>
    rcases onRxPort_cases h with ⟨hp, h⟩ | h
    · rcases withEmptyDp_cases h with ⟨-, h⟩ | h
      · simp only [complete_eq, Host.Outcome.next.injEq] at h; exact .inr (.inr (.inr (.inl ⟨rfl, hp, h.symm⟩)))
      · exact .of_illegal h
    · exact .of_illegal h
  | buildRequest c =>
    rcases execBuildRequest_cases h with ⟨st, hst, h⟩ | ⟨a, -, -, h⟩
    · exact .of_raise hst h
    · exact .of_result h rfl rfl (by simp)
  | buildCommand c d f =>
    rcases execBuildCommand_cases h with ⟨st, hst, h⟩ | ⟨a, fd, -, -, -, h⟩
    · exact .of_raise hst h
    · exact .of_result h rfl rfl (by simp)
  | formatLine id =>
    rcases withFrameDp_cases h with ⟨-, h⟩ | h
    · simp only [complete_eq, Host.Outcome.next.injEq] at h; exact .of_result h.symm rfl rfl (by simp)
    · exact .of_illegal h
  | parseLine =>
    simp only [exec, execParseLine] at h
    split at h <;> simp only [raise_eq, complete_eq, Host.Outcome.next.injEq] at h
    · rename_i hx; exact .of_raise (by simp [parseLine_error hx]) h.symm
    · rename_i hx; exact .of_result h.symm rfl rfl (by simpa using parseLine_length hx)
  | cfgRead reg =>
    rcases withEmptyDp_cases h with ⟨-, h⟩ | h
    · split at h
      · simp only [raise_eq, Host.Outcome.next.injEq] at h; exact .of_raise (by simp) h.symm
      · split at h <;> simp only [raise_eq, complete_eq, Host.Outcome.next.injEq] at h
        · exact .of_raise (by simp) h.symm
        · exact .of_result h.symm rfl rfl (by simp)
    · exact .of_illegal h
  | cfgWrite reg v =>
    rcases execCfgWrite_cases h with ⟨st, hst, h⟩ | ⟨rfl, hv, h⟩
    · exact .of_raise hst h
    · exact .inr (.inr (.inl ⟨v, rfl, hv, h⟩))

/-- Every way a step goes: a reset, nothing to do, or one command of the port served, decoded or illegal. -/
theorem step_cases (h : step s = .next t) :
    (∃ b, s.resetIn = some b ∧ t = s.takeReset b) ∨ (s.resetIn = none ∧ s.tx = [] ∧ s.rx = [] ∧ t = s) ∨
    ∃ p c rest, s.resetIn = none ∧ s.nextPort = some p ∧ s.waiting p = c :: rest ∧
      ((∃ i, decode c.cw = .ok i ∧ exec i (s.latch p c rest) = .next t) ∨
        (∃ e, decode c.cw = .error e) ∧ t = (s.latch p c rest).respond (Result.raised .illegalOperation)) := by
  unfold step at h
  split at h
  · exact .inl ⟨_, ‹_›, by simpa using h.symm⟩
  · rename_i hn
    split at h
    · rename_i hp
      obtain ⟨h1, h2⟩ := nextPort_eq_none.mp hp
      exact .inr (.inl ⟨hn, h1, h2, by simpa using h.symm⟩)
    · rename_i p hp
      obtain ⟨c, rest, hw⟩ := List.exists_cons_of_ne_nil (nextPort_waiting hp)
      refine .inr (.inr ⟨p, c, rest, hn, hp, hw, ?_⟩)
      simp only [stepOn, fetch_of_waiting hw] at h
      split at h
      · exact .inl ⟨_, ‹_›, h⟩
      · exact .inr ⟨⟨_, ‹_›⟩, by simpa using h.symm⟩

end Sys2Proof.Machine
end

