-- ==== Sys2Proof/Machine/Assembler.lean ====
section
/-! DEFINITION. The assembler's text of spec/30_encoding.md R61, one command a line, read into the bundle it stands for; and the
pseudo-instructions of R62. Log entry 10 says what R61 leaves open of the text. -/

namespace Sys2Proof.Machine

/-- What a line of assembler text stands for. -/
inductive AsmLine where
  /-- A command of the opcode map: its word, DP and VP. -/
  | command (c : Command)
  /-- SEND_REQUEST (R62). -/
  | sendRequest (cpgn : Pgn)
  /-- SEND_COMMAND (R62). -/
  | sendCommand (cpgn : Pgn) (dst : Addr) (fidx : BitVec 8) (value : Decimal)
deriving DecidableEq, Repr

/-- A reader of text: what it read, and the text after it. -/
abbrev Reader (α : Type) := List Char → Option (α × List Char)

/-- The text after any blanks. -/
def skipBlanks : List Char → List Char
  | ' ' :: cs => skipBlanks cs
  | cs => cs

/-- One given character, blanks around it skipped. -/
def readChar (c : Char) (cs : List Char) : Option (List Char) :=
  match skipBlanks cs with
  | d :: rest => if d = c then some (skipBlanks rest) else none
  | [] => none

/-- The value of a digit in the given base. -/
def digitOf (base : Nat) (c : Char) : Option Nat :=
  let n := c.toNat
  let v := if 0x30 ≤ n ∧ n ≤ 0x39 then n - 0x30 else if 0x41 ≤ n ∧ n ≤ 0x46 then n - 0x41 + 10
    else if 0x61 ≤ n ∧ n ≤ 0x66 then n - 0x61 + 10 else base
  if v < base then some v else none

/-- The digits at the front of a text: the value with `acc` before them, how many there are, and the text after. -/
def readDigits (base acc count : Nat) : List Char → Nat × Nat × List Char
  | [] => (acc, count, [])
  | c :: cs =>
    match digitOf base c with
    | some d => readDigits base (base * acc + d) (count + 1) cs
    | none => (acc, count, c :: cs)

/-- A number, decimal or `0x` hexadecimal (R61). -/
def readNat : Reader Nat
  | '0' :: 'x' :: cs =>
    match readDigits 16 0 0 cs with
    | (_, 0, _) => none
    | (v, _, rest) => some (v, rest)
  | cs =>
    match readDigits 10 0 0 cs with
    | (_, 0, _) => none
    | (v, _, rest) => some (v, rest)

/-- A number that fits a field of `n` bits; a value out of range cannot be presented (R57). -/
def readField (n : Nat) : Reader (BitVec n) := fun cs =>
  match readNat cs with
  | some (v, rest) => if v < 2 ^ n then some (BitVec.ofNat n v, rest) else none
  | none => none

/-- The next operand, after its comma. -/
def readNext (n : Nat) : Reader (BitVec n) := fun cs =>
  match readChar ',' cs with
  | some rest => readField n rest
  | none => none

/-- A decimal value for VP: a number of R61, with a sign allowed, and a fraction after decimal digits: DESIGN CHOICE (log
entry 10), since R61 does not say how a value is written. -/
def readDecimal (cs : List Char) : Option (Decimal × List Char) :=
  let (sign, body) : Int × List Char := match cs with
    | '-' :: rest => (-1, rest)
    | rest => (1, rest)
  match readNat body with
  | none => none
  | some (v, '.' :: rest) =>
    match readDigits 10 v 0 rest with
    | (m, k, after) => if k = 0 ∨ body.take 2 = ['0', 'x'] then none else some (⟨sign * m, -(k : Int)⟩, after)
  | some (v, rest) => some (⟨sign * v, 0⟩, rest)

/-- The hex bytes of a byte list up to its closing bracket, two digits each (R61). R61 separates them by spaces and does not
say what becomes of bytes run together: DESIGN CHOICE (log entry 10), any number of blanks may stand between two bytes, none
included, so `[4010]` is `[40 10]`. -/
def readBytes : List Char → Option (List Byte × List Char)
  | ' ' :: cs => readBytes cs
  | ']' :: cs => some ([], cs)
  | a :: b :: cs =>
    match digitOf 16 a, digitOf 16 b, readBytes cs with
    | some h, some l, some (bytes, rest) => some (BitVec.ofNat 8 (16 * h + l) :: bytes, rest)
    | _, _, _ => none
  | _ => none

/-- A byte list in brackets, after its comma. -/
def readByteList (cs : List Char) : Option (List Byte × List Char) :=
  match readChar ',' cs with
  | some ('[' :: rest) => readBytes rest
  | _ => none

/-- The bytes of a quoted string up to its closing quote, with the escapes `\r` and `\n` (R61). -/
def readQuoted : List Char → Option (List Byte × List Char)
  | '"' :: cs => some ([], cs)
  | '\\' :: 'r' :: cs => (readQuoted cs).map fun q => (0x0D :: q.1, q.2)
  | '\\' :: 'n' :: cs => (readQuoted cs).map fun q => (0x0A :: q.1, q.2)
  | c :: cs =>
    if c.toNat < 128 ∧ c ≠ '\\' then (readQuoted cs).map fun q => (BitVec.ofNat 8 c.toNat :: q.1, q.2) else none
  | [] => none

/-- The mnemonic at the front of a line: its letters, digits and underscores. -/
def readMnemonic : List Char → List Char × List Char
  | [] => ([], [])
  | c :: cs =>
    if c.isAlphanum || c = '_' then
      match readMnemonic cs with
      | (word, rest) => (c :: word, rest)
    else ([], c :: cs)

/-- A command with an empty DP; VP is ignored (R58). -/
def bareCommand (i : Instr) : AsmLine := .command ⟨encode i, [], ⟨0, 0⟩⟩

/-- A command with data. -/
def dataCommand (i : Instr) (dp : List Byte) : AsmLine := .command ⟨encode i, dp, ⟨0, 0⟩⟩

/-- The operands of a mnemonic, as R61's table lists them. -/
def readOperands (mnemonic : String) (cs : List Char) : Option (AsmLine × List Char) :=
  match mnemonic with
  | "NOP" => some (bareCommand .nop, cs)
  | "FP_FLUSH" => some (bareCommand .fpFlush, cs)
  | "ENCODE_ID" => do
    let (pri, cs) ← readField 3 cs
    let (pgn, cs) ← readNext 17 cs
    let (src, cs) ← readNext 8 cs
    let (dst, cs) ← readNext 8 cs
    some (bareCommand (.encodeId pri pgn src dst), cs)
  | "DECODE_ID" => do
    let (id, cs) ← readField 29 cs
    some (bareCommand (.decodeId id), cs)
  | "SEGMENT" => do
    let (pri, cs) ← readField 3 cs
    let (pgn, cs) ← readNext 17 cs
    let (src, cs) ← readNext 8 cs
    let (dst, cs) ← readNext 8 cs
    let (dp, cs) ← readByteList cs
    some (dataCommand (.segment pri pgn src dst) dp, cs)
  | "ACCEPT" => do
    let (id, cs) ← readField 29 cs
    let (dp, cs) ← readByteList cs
    some (dataCommand (.accept id) dp, cs)
  | "BUILD_REQUEST" => do
    let (cpgn, cs) ← readField 17 cs
    some (bareCommand (.buildRequest cpgn), cs)
  | "BUILD_COMMAND" => do
    let (cpgn, cs) ← readField 17 cs
    let (dst, cs) ← readNext 8 cs
    let (fidx, cs) ← readNext 8 cs
    let cs ← readChar ',' cs
    let (value, cs) ← readDecimal cs
    some (.command ⟨encode (.buildCommand cpgn dst fidx), [], value⟩, cs)
  | "FORMAT_LINE" => do
    let (id, cs) ← readField 29 cs
    let (dp, cs) ← readByteList cs
    some (dataCommand (.formatLine id) dp, cs)
  | "PARSE_LINE" =>
    match cs with
    | '"' :: rest => do
      let (dp, cs) ← readQuoted rest
      some (dataCommand .parseLine dp, cs)
    | _ => none
  | "CFG_READ" => do
    let (reg, cs) ← readField 8 cs
    some (bareCommand (.cfgRead reg), cs)
  | "CFG_WRITE" => do
    let (reg, cs) ← readField 8 cs
    let (value, cs) ← readNext 32 cs
    some (bareCommand (.cfgWrite reg value), cs)
  | "SET_ADDR" => do
    let (a, cs) ← readField 32 cs
    some (bareCommand (setAddr a), cs)
  | "SEND_REQUEST" => do
    let (cpgn, cs) ← readField 17 cs
    some (.sendRequest cpgn, cs)
  | "SEND_COMMAND" => do
    let (cpgn, cs) ← readField 17 cs
    let (dst, cs) ← readNext 8 cs
    let (fidx, cs) ← readNext 8 cs
    let cs ← readChar ',' cs
    let (value, cs) ← readDecimal cs
    some (.sendCommand cpgn dst fidx value, cs)
  | _ => none

/-- A whole line of assembler text (R61): nothing may follow the operands but blanks. -/
def assembleLine (text : List Char) : Option AsmLine :=
  match readMnemonic (skipBlanks text) with
  | (word, rest) =>
    match readOperands (String.ofList word) (skipBlanks rest) with
    | some (line, after) => if skipBlanks after = [] then some line else none
    | none => none

end Sys2Proof.Machine
end

