-- ==== Sys2Proof/Tests/Slice0.lean ====
section
/-! SUPPORT. Tests, and for each statement that has hypotheses a witness that meets them. The expected results are the vectors of
spec/95_test_vectors.md, named beside each test; the others are worked out by hand from the rule named. -/

namespace Sys2Proof.Tests

open Sys2Proof.Machine

/-! ## Helpers -/

/-- The field model of the vectors: two Fast Packet PGNs, and the fields of 130900 that the tests use. -/
def fields : FieldModel where
  fastPgns := [0x1ED00, 0x1F010]
  fields := [((130900, 4), ⟨16, 0⟩), ((130900, 0), ⟨1, 0⟩), ((130900, 254), ⟨64, 0⟩), ((130900, 8), ⟨65, 0⟩),
    ((130900, 9), ⟨0, 0⟩), ((130900, 1), ⟨10, 0⟩)]
  quanta := [((⟨16, 0⟩, ⟨150, -2⟩), 0x0096), ((⟨1, 0⟩, ⟨0, 0⟩), 0), ((⟨64, 0⟩, ⟨0, 0⟩), 0x0123456789ABCDEF),
    ((⟨10, 0⟩, ⟨0, 0⟩), 0xFFFF)]

/-- LOCAL_ADDR 0x42, a table, and a number of slots. -/
def at42 (t : Memory) (slots : Option Nat) : State :=
  { State.reset with
    localAddr := some 0x42, table := t, bind := { Binding.initial with numFpSlots := slots, model := fields } }

/-- LOCAL_ADDR 0x42 and an empty table of one slot for each identifier. -/
def s42 : State := at42 [] none

/-- The identifiers A and B of the vectors: PGN 0x1F010, which is Fast Packet. -/
def idA : CanId := 0x0DF01001
def idB : CanId := 0x0DF01002

/-- The entry of L2-FP-10 after its first frame. -/
def entryA : Entry := ⟨20, 6, 0, [1, 2, 3, 4, 5, 6]⟩

/-- A state with that entry. -/
def busy : State := at42 [(idA, entryA)] none

def resultOf (o : Outcome) : Option Result :=
  match o with
  | .next t => t.lastResult
  | .fault _ => none
  | .refused _ => none

def tableOf (o : Outcome) : Option Memory :=
  match o with
  | .next t => some t.table
  | .fault _ => none
  | .refused _ => none

def addrOf (o : Outcome) : Option (Option Addr) :=
  match o with
  | .next t => some t.localAddr
  | .fault _ => none
  | .refused _ => none

/-- What a command answers on a port with the given data. -/
def run (i : Instr) (p : Port) (dp : List Byte) (s : State) : Outcome := exec i (s.withInput p dp)

/-! ## WellFormed: a term that each check refuses (R58, R59) -/

theorem test_accept_refused_on_tx : (Instr.accept 0).wellFormedOn .tx 8 = false := rfl
theorem test_flush_refused_on_tx : Instr.fpFlush.wellFormedOn .tx 0 = false := rfl
theorem test_accept_refuses_nine_bytes : (Instr.accept 0).wellFormedOn .rx 9 = false := rfl
theorem test_format_line_refuses_nine_bytes : (Instr.formatLine 0).wellFormedOn .tx 9 = false := rfl
theorem test_other_commands_refuse_data :
    [Instr.nop, .encodeId 0 0 0 0, .decodeId 0, .fpFlush, .buildRequest 0, .buildCommand 0 0 0, .cfgRead 0,
      .cfgWrite 0 0].all (fun i => !i.wellFormedOn .rx 1) = true := rfl
theorem test_well_formed_at_the_limits :
    (Instr.accept 0).wellFormedOn .rx 8 && (Instr.formatLine 0).wellFormedOn .tx 8 && Instr.parseLine.wellFormedOn .tx 34 &&
      (Instr.segment 0 0 0 0).wellFormedOn .rx 224 && Instr.nop.wellFormedOn .tx 0 = true := rfl

/-! ## Decoding: one word of each command, from spec/95_test_vectors.md -/

theorem test_decode_nop : decode 0x0000000000000000 = .ok .nop := rfl                                     -- L2-CFG-16
theorem test_decode_encode_id : decode 0x00FFFF01FF000701 = .ok (.encodeId 7 0x1FF00 0xFF 0xFF) := rfl    -- L2-ID-2
theorem test_decode_encode_id_fields : decode 0x00550101F0100601 = .ok (.encodeId 6 0x1F010 0x01 0x55) := rfl -- L2-ID-5
theorem test_decode_decode_id : decode 0x0000001BF0100102 = .ok (.decodeId 0x1BF01001) := rfl             -- L2-ID-15
theorem test_decode_segment : decode 0x00FF0101F0100310 = .ok (.segment 3 0x1F010 0x01 0xFF) := rfl       -- L2-FP-1
theorem test_decode_accept : decode 0x00000009F8010211 = .ok (.accept 0x09F80102) := rfl                  -- L2-FP
theorem test_decode_fp_flush : decode 0x0000000000000012 = .ok .fpFlush := rfl                            -- P5, 10
theorem test_decode_build_request : decode 0x0000000001FF5420 = .ok (.buildRequest 130900) := rfl         -- P1, 3
theorem test_decode_build_command : decode 0x0000FE0501FF5421 = .ok (.buildCommand 130900 0x05 254) := rfl -- L2-GF-14
theorem test_decode_format_line : decode 0x0000001FFFFFFF30 = .ok (.formatLine 0x1FFFFFFF) := rfl         -- L2-LN-2
theorem test_decode_parse_line : decode 0x0000000000000031 = .ok .parseLine := rfl                        -- L2-LN-6
theorem test_decode_cfg_read : decode 0x0000000000000740 = .ok (.cfgRead 7) := rfl                        -- L2-CFG-8
theorem test_decode_cfg_write : decode 0x0000000001000141 = .ok (.cfgWrite 1 0x100) := rfl                -- L2-CFG-14

/-- The encoder writes the same words. -/
theorem test_encode_words :
    [encode (.encodeId 6 0x1F010 0x01 0x55), encode (.segment 3 0x1F010 0x01 0xFF),
      encode (.buildCommand 130900 0x05 254), encode (.cfgWrite 1 0x100)] =
    [0x00550101F0100601, 0x00FF0101F0100310, 0x0000FE0501FF5421, 0x0000000001000141] := by decide

theorem test_unlisted_opcode : decode 0x0000000000000003 = .error (.unlistedOpcode 0x03) := rfl           -- L2-CFG-18
theorem test_nop_reserved_bit : decode 0x0000000000000100 = .error (.reservedBitSet "NOP") := rfl         -- L2-CFG-17
theorem test_encode_id_bit_11 : decode 0x00020100EF000A01 = .error (.reservedBitSet "ENCODE_ID") := rfl   -- L2-ID-17

/-- The opcodes differ, and each row's value lies within its mask (R56). -/
theorem test_rows_distinct : opcodeRows.Pairwise fun a b => a.opcode ≠ b.opcode := by decide
theorem test_rows_within_masks :
    opcodeRows.all (fun r => r.value &&& r.mask == r.value && r.value == encodeOp r.opcode) = true := by decide

theorem test_table_word : decodeTableWord 64 0x0000000000420041 = some (.cfgWrite 0 0x42) := rfl
theorem test_table_word_refused : decodeTableWord 64 0x0000000000000100 = none := rfl
theorem test_with_fetch_word :
    addrOf (step (State.reset.withFetchWord 64 0x0000000000420041)) = some (some 0x42) := by decide

/-! ## One step of each command -/

-- L2-CFG-16, R58
theorem test_nop : resultOf (run .nop .tx [] s42) = some { status := 0x00 } := by decide
theorem test_nop_with_data : resultOf (run .nop .tx [0] s42) = some { status := 0x05 } := by decide

-- L2-ID-5, L2-ID-8
theorem test_encode_id : resultOf (run (.encodeId 6 0x1F010 0x01 0x55) .tx [] s42) =
    some { status := 0x00, id := some 0x19F01001 } := by decide
theorem test_encode_id_low_byte : resultOf (run (.encodeId 2 0x0EF01 0x01 0x02) .tx [] s42) = some { status := 0x01 } := by
  decide

-- L2-ID-10, L2-ID-12
theorem test_decode_id_bit_25 : resultOf (run (.decodeId 0x1FFFFFFF) .rx [] s42) =
    some { status := 0x00, hdr := some ⟨7, 0x1FFFF, 0xFF, 0xFF⟩ } := by decide
theorem test_decode_id_pdu1 : resultOf (run (.decodeId 0x0CEF1020) .rx [] s42) =
    some { status := 0x00, hdr := some ⟨3, 0x0EF00, 0x20, 0x10⟩ } := by decide

-- L2-FP-3, L2-FP-2
theorem test_segment_nine : resultOf (run (.segment 3 0x1F010 0x01 0xFF) .tx (List.replicate 9 0xAA) s42) =
    some { status := 0x00, frames := [⟨idA, [0x40, 0x09, 0xAA, 0xAA, 0xAA, 0xAA, 0xAA, 0xAA]⟩,
      ⟨idA, [0x41, 0xAA, 0xAA, 0xAA, 0xFF, 0xFF, 0xFF, 0xFF]⟩] } := by decide
theorem test_segment_too_long_first :
    resultOf (run (.segment 2 0x0EF01 0x01 0x02) .tx (List.replicate 224 0) s42) = some { status := 0x03 } := by
  decide +kernel

-- L2-FP-10 step 2, L2-FP-7 step 3
theorem test_accept_next : tableOf (run (.accept idA) .rx [0x41, 7, 8, 9, 10, 11, 12, 13] busy) =
    some [(idA, ⟨20, 13, 1, [1, 2, 3, 4, 5, 6, 7, 8, 9, 10, 11, 12, 13]⟩)] := by decide
theorem test_accept_short_not_orphan : resultOf (run (.accept idA) .rx [0x41, 1, 2] s42) =
    some { status := 0x00, verdict := some (.discarded .shortFrame) } := by decide

-- P5 steps 10, 9
theorem test_fp_flush : tableOf (run .fpFlush .rx [] busy) = some [] := by decide
theorem test_fp_flush_on_tx : resultOf (run .fpFlush .tx [] busy) = some { status := 0x05 } := by decide

-- P1 steps 3, 1
theorem test_build_request : resultOf (run (.buildRequest 130900) .tx [] s42) =
    some { status := 0x00, msg := some {
      pri := 2, pgn := 0x1ED00, src := 0x42, dst := 0xFF
      payload := [0x00, 0x54, 0xFF, 0x01, 0xFF, 0xFF, 0xFF, 0xFF, 0xFF, 0xFF, 0x02, 0x01, 0xE4, 0x07, 0x03, 0x04] } } := by
  decide
theorem test_build_request_unset : resultOf (run (.buildRequest 130900) .tx [] State.reset) = some { status := 0x04 } := by
  decide

-- P4 step 1; L2-GF-15
theorem test_build_command :
    resultOf (exec (.buildCommand 130900 0x23 4) { s42 with inp := ⟨.tx, [], ⟨150, -2⟩⟩ }) =
    some { status := 0x00, msg := some {
      pri := 2, pgn := 0x1ED00, src := 0x42, dst := 0x23
      payload := [0x01, 0x54, 0xFF, 0x01, 0xF8, 0x03, 0x01, 0xE4, 0x07, 0x03, 0x04, 0x05, 0x96, 0x00] } } := by decide
theorem test_build_command_drops_high_bits :
    (resultOf (run (.buildCommand 130900 0x23 1) .tx [] s42)).map (fun r => r.msg.map (fun m => m.payload.drop 11)) =
    some (some [0x02, 0xFF, 0xFF]) := by decide

-- L2-LN-3, L2-LN-5
theorem test_format_line : resultOf (run (.formatLine 0x09EDFF42) .tx [0x0A, 0xBC] s42) =
    some { status := 0x00, line := "09EDFF42 0A BC\r\n".toList.map fun c => BitVec.ofNat 8 c.toNat } := by decide
theorem test_format_line_nine : resultOf (run (.formatLine 0x09EDFF42) .tx (List.replicate 9 0) s42) =
    some { status := 0x05 } := by decide

-- L2-LN-6, L2-LN-9
theorem test_parse_line_lower_case :
    resultOf (run .parseLine .rx ("0DF01001 40 09 aa AA\r\n".toList.map fun c => BitVec.ofNat 8 c.toNat) s42) =
    some { status := 0x00, id := some idA, frames := [⟨idA, [0x40, 0x09, 0xAA, 0xAA]⟩] } := by decide +kernel
theorem test_parse_line_big_identifier :
    resultOf (run .parseLine .rx ("20000000 01\r\n".toList.map fun c => BitVec.ofNat 8 c.toNat) s42) =
    some { status := 0x07 } := by decide +kernel

-- P2 step 5, L2-CFG-9
theorem test_cfg_read_fp_active : resultOf (run (.cfgRead 5) .tx [] busy) = some { status := 0x00, cfgval := some 1 } := by
  decide
theorem test_cfg_read_unknown : resultOf (run (.cfgRead 8) .tx [] s42) = some { status := 0x05 } := by decide

-- L2-CFG-12, L2-CFG-14
theorem test_cfg_write_too_wide : addrOf (run (.cfgWrite 0 0x100) .tx [] s42) = some (some 0x42) := by decide
theorem test_cfg_write_read_only_first : resultOf (run (.cfgWrite 1 0x100) .tx [] s42) = some { status := 0x06 } := by decide

/-! ## Pseudo-instructions and text (R61, R62) -/

-- L1-1
theorem test_send_request : (resultOf (sendRequest 130900 (s42.withInput .tx []))).map (·.frames) =
    some [⟨0x09EDFF42, [0x40, 0x10, 0x00, 0x54, 0xFF, 0x01, 0xFF, 0xFF]⟩,
      ⟨0x09EDFF42, [0x41, 0xFF, 0xFF, 0xFF, 0xFF, 0x02, 0x01, 0xE4]⟩,
      ⟨0x09EDFF42, [0x42, 0x07, 0x03, 0x04, 0xFF, 0xFF, 0xFF, 0xFF]⟩] := by decide

-- P4 step 2
theorem test_send_command :
    (resultOf (sendCommand 130900 0x23 4 { s42 with inp := ⟨.tx, [], ⟨150, -2⟩⟩ })).map (fun r => r.frames.map (·.data)) =
    some [[0x40, 0x0E, 0x01, 0x54, 0xFF, 0x01, 0xF8, 0x03], [0x41, 0x01, 0xE4, 0x07, 0x03, 0x04, 0x05, 0x96],
      [0x42, 0x00, 0xFF, 0xFF, 0xFF, 0xFF, 0xFF, 0xFF]] := by decide

-- P3 step 6, P4 step 1
theorem test_assemble_accept : assembleLine "ACCEPT 0x09EDFF42, [40 10 00 54 FF 01 FF FF]".toList =
    some (.command ⟨0x00000009EDFF4211, [0x40, 0x10, 0x00, 0x54, 0xFF, 0x01, 0xFF, 0xFF], ⟨0, 0⟩⟩) := by decide +kernel
-- log entry 10: bytes run together, and no fraction of a hexadecimal number
theorem test_assemble_bytes_run_together : assembleLine "ACCEPT 0x09EDFF42, [4010]".toList =
    some (.command ⟨0x00000009EDFF4211, [0x40, 0x10], ⟨0, 0⟩⟩) := by decide +kernel
theorem test_assemble_hex_fraction : assembleLine "BUILD_COMMAND 130900, 0x23, 4, 0x1.5".toList = none := by decide +kernel
-- R62; the word of L2-CFG-12, which raises IllegalOperation
theorem test_assemble_set_addr_too_wide : assembleLine "SET_ADDR 0x100".toList =
    some (.command ⟨0x0000000001000041, [], ⟨0, 0⟩⟩) := by decide +kernel
theorem test_assemble_build_command : assembleLine "BUILD_COMMAND 130900, 0x23, 4, 1.50".toList =
    some (.command ⟨0x0000042301FF5421, [], ⟨150, -2⟩⟩) := by decide +kernel

/-! ## Witnesses: concrete states and operands that meet a statement's hypotheses, at the ends of each clause's range -/

/-- A command with an empty DP. -/
def bare (cw : CommandWord) : Command := ⟨cw, [], ⟨0, 0⟩⟩

/-- The next frame of A, as a command on RX. -/
def nextA : Command := ⟨0x0000000DF0100111, [0x41, 7, 8, 9, 10, 11, 12, 13], ⟨0, 0⟩⟩

theorem entryA_ok : entryA.Ok := by unfold Entry.Ok; decide

theorem busy_tableOk : busy.TableOk := by
  refine ⟨rfl, ?_, by simp [busy, at42]⟩
  simpa [busy, at42] using entryA_ok

theorem witness_EncodeOfDecode : decode 0x0000000001000141 = .ok (.cfgWrite 1 0x100) := rfl

theorem witness_DecodeSelectsMatchingRow :
    (∃ row ∈ opcodeRows, (0x00FFFF01FF000701 : CommandWord) &&& row.mask = row.value) ∧
    (∀ row ∈ opcodeRows, (0x0000000000000100 : CommandWord) &&& row.mask ≠ row.value) ∧
    ∀ row ∈ opcodeRows, (0x0000000000000003 : CommandWord) &&& row.mask ≠ row.value := by decide

theorem witness_StepRunsDecodedCommand :
    (∀ p : Port, (s42.present p (bare 0x0000000000420041)).resetIn = none ∧
      (s42.present p (bare 0x0000000000420041)).nextPort = some p ∧
      (s42.present p (bare 0x0000000000420041)).waiting p = [bare 0x0000000000420041]) ∧
    decode (bare 0x0000000000420041).cw = .ok (.cfgWrite 0 0x42) :=
  ⟨fun p => by cases p <;> exact ⟨rfl, rfl, rfl⟩, rfl⟩

theorem witness_UnmatchedWordIsIllegal :
    (s42.present .tx (bare 0x0000000000000003)).resetIn = none ∧
    (s42.present .tx (bare 0x0000000000000003)).nextPort = some .tx ∧
    (s42.present .tx (bare 0x0000000000000003)).waiting .tx = [bare 0x0000000000000003] ∧
    ∀ row ∈ opcodeRows, (bare 0x0000000000000003).cw &&& row.mask ≠ row.value :=
  ⟨rfl, rfl, rfl, by decide⟩

theorem witness_IllFormedCommandIsIllegal :
    Instr.fpFlush.wellFormedOn (s42.withInput .tx []).inp.port (s42.withInput .tx []).inp.dp.length = false ∧
    Instr.nop.wellFormedOn (s42.withInput .rx [0]).inp.port (s42.withInput .rx [0]).inp.dp.length = false := ⟨rfl, rfl⟩

theorem witness_HoldsStateBetweenCommands : busy.resetIn = none ∧ busy.tx = [] ∧ busy.rx = [] := ⟨rfl, rfl, rfl⟩

theorem witness_OneCommandInPortOrder :
    busy.resetIn = none ∧ (∃ t, step busy = .next t) ∧ (busy.present .rx nextA).resetIn = none ∧
    ∃ t, step (busy.present .rx nextA) = .next t := ⟨rfl, ⟨_, rfl⟩, rfl, ⟨_, rfl⟩⟩

/-- A binding with the given number of slots. -/
def bound (slots : Option Nat) : Binding := { Binding.initial with numFpSlots := slots }

theorem witness_ResetEventState :
    (busy.assertReset (bound none)).resetIn = some (bound none) ∧ (bound none).numFpSlots = none ∧
    (busy.assertReset (bound (some 0))).resetIn = some (bound (some 0)) ∧ (bound (some 0)).numFpSlots = some 0 ∧
    (busy.assertReset (bound (some 4294967295))).resetIn = some (bound (some 4294967295)) ∧
    (bound (some 4294967295)).numFpSlots = some 4294967295 ∧ 4294967295 < 2 ^ 32 :=
  ⟨rfl, rfl, rfl, rfl, rfl, rfl, by norm_num⟩

theorem witness_ResetKeepsHostQueues :
    ((busy.present .rx nextA).assertReset (bound none)).resetIn = some (bound none) ∧
    ∃ t, step ((busy.present .rx nextA).assertReset (bound none)) = .next t := ⟨rfl, ⟨_, rfl⟩⟩

theorem witness_ParametersFixedBetweenResets :
    (∃ t, step (busy.present .rx nextA) = .next t) ∧ ∃ t, step (busy.assertReset (bound none)) = .next t :=
  ⟨⟨_, rfl⟩, ⟨_, rfl⟩⟩

theorem witness_LocalAddrChangesOnlyByWrite :
    (s42.present .tx (bare 0x0000000000FF0041)).resetIn = none ∧
    ∃ t, step (s42.present .tx (bare 0x0000000000FF0041)) = .next t ∧
      t.localAddr ≠ (s42.present .tx (bare 0x0000000000FF0041)).localAddr := ⟨rfl, _, rfl, by decide⟩

/-- `busy` with a frame to accept, LOCAL_ADDR UNSET and nothing to send. -/
def quiet : State := { busy.present .rx nextA with localAddr := none }

theorem witness_RxVerdictsIgnoreTx :
    (∃ t, runPorts [.tx, .rx, .tx] ((busy.present .rx nextA).present .tx (bare 0x0000000000000540)) = .next t) ∧
    quiet.table = busy.table ∧ quiet.bind = busy.bind ∧ quiet.rx = (busy.present .rx nextA).rx ∧
    quiet.tx = [] ∧ quiet.localAddr ≠ busy.localAddr := ⟨⟨_, rfl⟩, rfl, rfl, rfl, rfl, by decide⟩

theorem witness_StepKeepsInvariant :
    (busy.present .rx nextA).Inv ∧ ∃ t, step (busy.present .rx nextA) = .next t :=
  ⟨⟨busy_tableOk, by simp [State.AnswersOk, State.present, State.setWaiting, busy, at42, State.reset], rfl⟩, ⟨_, rfl⟩⟩

theorem witness_StepNeverStops : (busy.present .rx nextA).TableOk := busy_tableOk

theorem witness_FpActiveCountsIdentifiers : busy.table.wf = true ∧ busy.table.get idA ≠ none := by decide

theorem witness_CommandFrame :
    (∃ t, run (.decodeId 0x1FFFFFFF) .tx [] busy = .next t) ∧ (∃ t, run (.cfgWrite 0 0xFF) .tx [] busy = .next t) ∧
    ∃ t, run (.accept idA) .rx nextA.dp busy = .next t := ⟨⟨_, rfl⟩, ⟨_, rfl⟩, ⟨_, rfl⟩⟩

theorem witness_RaiseHasNoOtherEffect :
    ∃ t r, run (.encodeId 2 0x0EF01 0x01 0x02) .tx [] busy = .next t ∧ t.lastResult = some r ∧ r.status ≠ 0x00 :=
  ⟨_, _, rfl, rfl, by decide⟩

theorem witness_NopCompletes : (busy.withInput .tx []).inp.dp = [] := rfl

theorem witness_EncodeIdBuildsFields :
    (busy.withInput .tx []).inp.dp = [] ∧
    (((0x0EF01 : Pgn).extractLsb' 8 8).toNat < 240 ∧ (0x0EF01 : Pgn).extractLsb' 0 8 ≠ 0) ∧
    (((0x0EF00 : Pgn).extractLsb' 8 8).toNat < 240 ∧ (0x0EF00 : Pgn).extractLsb' 0 8 = 0) ∧
    ¬ ((0x0F001 : Pgn).extractLsb' 8 8).toNat < 240 := by decide

theorem witness_DecodeIdSplitsFields :
    (busy.withInput .rx []).inp.dp = [] ∧ ((0x0CEF1020 : CanId).extractLsb' 16 8).toNat < 240 ∧
    ¬ ((0x0CF01020 : CanId).extractLsb' 16 8).toNat < 240 := by decide

theorem witness_Pdu1RoundTrip : ((0x0EF00 : Pgn).extractLsb' 8 8).toNat < 240 ∧ (0x0EF00 : Pgn).extractLsb' 0 8 = 0 := by
  decide

theorem witness_Pdu2RoundTrip : 240 ≤ ((0x0F000 : Pgn).extractLsb' 8 8).toNat := by decide

theorem witness_ReverseRoundTrip :
    (0x1DFFFFFF : CanId).getLsbD 25 = false ∧ (⟨3, 0x0EF00, 0x10, 0x20⟩ : Header).Encodable ∧
    (⟨3, 0x0F000, 0x10, 0xFF⟩ : Header).Encodable := by
  unfold Header.Encodable; decide

theorem witness_Bit25IsIgnoredButKeyed :
    (∃ id, encodeCanId 7 0x1FF00 0xFF 0xFF = .ok id) ∧
    ∃ t, run (.accept (idA ^^^ (1#29 <<< 25))) .rx nextA.dp busy = .next t := ⟨⟨_, rfl⟩, ⟨_, rfl⟩⟩

/-- A payload of n bytes. -/
def payload (n : Nat) : List Byte := List.replicate n 0xAA

theorem payload_length (n : Nat) : (payload n).length = n := List.length_replicate

theorem witness_SegmentRaises :
    223 < (s42.withInput .tx (payload 224)).inp.dp.length ∧ (s42.withInput .tx (payload 223)).inp.dp.length ≤ 223 ∧
    ((0x0EF01 : Pgn).extractLsb' 8 8).toNat < 240 ∧ (0x0EF01 : Pgn).extractLsb' 0 8 ≠ 0 :=
  ⟨(payload_length 224).symm ▸ by omega, (payload_length 223).le, by decide, by decide⟩

theorem witness_SegmentSingleFrame :
    encodeCanId 3 0x1F010 0x01 0xFF = .ok idA ∧ (s42.withInput .tx (payload 0)).inp.dp.length ≤ 8 ∧
    (s42.withInput .tx (payload 8)).inp.dp.length ≤ 8 := ⟨rfl, by decide, by decide⟩

theorem witness_SegmentFastPacketFrames :
    encodeCanId 3 0x1F010 0x01 0xFF = .ok idA ∧ 9 ≤ (s42.withInput .tx (payload 9)).inp.dp.length ∧
    (s42.withInput .tx (payload 223)).inp.dp.length ≤ 223 :=
  ⟨rfl, by decide, (payload_length 223).le⟩

/-- S of the vectors: PGN 0x1F801, which is not Fast Packet. -/
def idS : CanId := 0x09F80102

theorem witness_AcceptSingleFrame :
    (busy.withInput .rx (payload 8)).inp.port = .rx ∧ (busy.withInput .rx (payload 8)).inp.dp.length ≤ 8 ∧
    (busy.withInput .rx (payload 8)).table.get idS = none ∧
    isFastPacket (busy.withInput .rx (payload 8)).bind.model (decodeCanId idS).pgn = false := by decide

theorem witness_AcceptShortFrame :
    (busy.withInput .rx (payload 7)).inp.port = .rx ∧ (busy.withInput .rx (payload 7)).inp.dp.length < 8 ∧
    (isFastPacket busy.bind.model (decodeCanId idB).pgn = true ∧ busy.table.get idB = none) ∧
    (at42 [(idS, entryA)] none).table.get idS ≠ none := by decide

/-- The hypotheses of AcceptFrameZero hold whatever the length byte, and its four clauses are met at 224, 6, 7 and 223; the
last two differ in whether a slot is free. -/
theorem witness_AcceptFrameZero :
    (busy.withInput .rx [0xA0, 224, 1, 2, 3, 4, 5, 6]).inp.port = .rx ∧
    (busy.withInput .rx [0xA0, 224, 1, 2, 3, 4, 5, 6]).inp.dp = [0xA0, 224, 1, 2, 3, 4, 5, 6] ∧
    (0xA0 : Byte).toNat % 32 = 0 ∧ isFastPacket busy.bind.model (decodeCanId idB).pgn = true ∧
    223 < (224 : Byte).toNat ∧ (6 : Byte).toNat ≤ 6 ∧ ¬ (7 : Byte).toNat ≤ 6 ∧ ¬ 223 < (223 : Byte).toNat ∧
    (busy.table.erase idB).hasSlot busy.bind.numFpSlots = true ∧
    (busy.table.erase idB).hasSlot (some 1) = false ∧ (busy.table.erase idA).hasSlot (some 1) = true := by decide

/-- `busy` taking a continuation frame. -/
def busyNext : State := busy.withInput .rx [0x41, 7, 8, 9, 10, 11, 12, 13]

theorem witness_AcceptAppendsContinuation :
    busyNext.inp.port = .rx ∧ busyNext.inp.dp = 0x41 :: [7, 8, 9, 10, 11, 12, 13] ∧
    busyNext.table.get idA = some entryA ∧ entryA.Ok ∧ (0x41 : Byte).toNat % 32 = entryA.last + 1 ∧
    entryA.acc + 7 < entryA.total := ⟨rfl, rfl, rfl, entryA_ok, rfl, by decide⟩

/-- An entry that one more frame completes exactly, and one that it completes with six bytes to trim. -/
def lastA : Entry := ⟨13, 6, 0, [1, 2, 3, 4, 5, 6]⟩
def trimA : Entry := ⟨7, 6, 0, [1, 2, 3, 4, 5, 6]⟩

theorem witness_AcceptCompletesMessage :
    ((at42 [(idA, lastA)] none).withInput .rx [0x41, 7, 8, 9, 10, 11, 12, 13]).table.get idA = some lastA ∧ lastA.Ok ∧
    (0x41 : Byte).toNat % 32 = lastA.last + 1 ∧ lastA.total ≤ lastA.acc + 7 ∧
    ((at42 [(idA, trimA)] none).withInput .rx [0x41, 7, 8, 9, 10, 11, 12, 13]).table.get idA = some trimA ∧ trimA.Ok ∧
    (0x41 : Byte).toNat % 32 = trimA.last + 1 ∧ trimA.total ≤ trimA.acc + 7 := by
  unfold Entry.Ok; decide

theorem witness_AcceptDiscardsOrphan :
    (s42.withInput .rx [0x41, 1, 2, 3, 4, 5, 6, 7]).inp.port = .rx ∧
    (s42.withInput .rx [0x41, 1, 2, 3, 4, 5, 6, 7]).inp.dp = 0x41 :: [1, 2, 3, 4, 5, 6, 7] ∧
    s42.table.get idA = none ∧ isFastPacket s42.bind.model (decodeCanId idA).pgn = true ∧ (0x41 : Byte).toNat % 32 ≠ 0 := by
  decide

theorem witness_AcceptDiscardsOutOfSequence :
    (busy.withInput .rx [0x42, 7, 8, 9, 10, 11, 12, 13]).inp.dp = 0x42 :: [7, 8, 9, 10, 11, 12, 13] ∧
    (busy.withInput .rx [0x42, 7, 8, 9, 10, 11, 12, 13]).table.get idA = some entryA ∧ (0x42 : Byte).toNat % 32 ≠ 0 ∧
    (0x42 : Byte).toNat % 32 ≠ entryA.last + 1 := by decide

theorem witness_AcceptNeverFails :
    busyNext.TableOk ∧ busyNext.inp.port = .rx ∧ busyNext.inp.dp.length ≤ 8 ∧
    (busyNext.inp.dp = 0x41 :: [7, 8, 9, 10, 11, 12, 13] ∧ (0x41 : Byte).toNat % 32 ≠ 0 ∧ busyNext.table.get idB = none ∧
      isFastPacket busyNext.bind.model (decodeCanId idB).pgn = true) := ⟨busy_tableOk, rfl, by decide, by decide⟩

theorem witness_AcceptLeavesOtherIdentifiers : (∃ t, exec (.accept idA) busyNext = .next t) ∧ idB ≠ idA :=
  ⟨⟨_, rfl⟩, by decide⟩

theorem witness_RepeatedContinuationIsDropped :
    (0x41 : Byte).toNat % 32 ≠ 0 ∧ ([7, 8, 9, 10, 11, 12, 13] : List Byte).length = 7 ∧ busy.table.get idA ≠ none ∧
    ∃ t, exec (.accept idA) busyNext = .next t ∧ t.table.get idA ≠ none := ⟨by decide, rfl, by decide, _, rfl, by decide⟩

theorem witness_SegmentThenAcceptRoundTrip :
    9 ≤ (payload 9).length ∧ (payload 223).length ≤ 223 ∧ encodeCanId 3 0x1F010 0x01 0xFF = .ok idA ∧
    (∃ u r, exec (.segment 3 0x1F010 0x01 0xFF) (s42.withInput .tx (payload 9)) = .next u ∧ u.lastResult = some r) ∧
    isFastPacket s42.bind.model 0x1F010 = true ∧ s42.table.get idA = none ∧
    s42.table.hasSlot s42.bind.numFpSlots = true :=
  ⟨by decide, (payload_length 223).le, rfl, ⟨_, _, rfl, rfl⟩, by decide, rfl, rfl⟩

theorem witness_SingleFrameRoundTrip :
    (payload 8).length ≤ 8 ∧ encodeCanId 2 0x1F801 0x02 0x00 = .ok idS ∧
    (∃ u r, exec (.segment 2 0x1F801 0x02 0x00) (s42.withInput .tx (payload 8)) = .next u ∧ u.lastResult = some r) ∧
    isFastPacket s42.bind.model 0x1F801 = false ∧ s42.table.get idS = none :=
  ⟨by decide, rfl, ⟨_, _, rfl, rfl⟩, by decide, rfl⟩

theorem witness_FlushEmptiesTable : (busy.withInput .rx []).inp.port = .rx ∧ (busy.withInput .rx []).inp.dp = [] := ⟨rfl, rfl⟩

theorem witness_BuildRequestMessage : (busy.withInput .tx []).inp.dp = [] ∧ (busy.withInput .tx []).localAddr = some 0x42 :=
  ⟨rfl, rfl⟩

theorem witness_BuildCommandMessage :
    (s42.withInput .tx []).inp.dp = [] ∧ (s42.withInput .tx []).localAddr = some 0x42 ∧ (254 : BitVec 8) ≠ 255 ∧
    fieldSchema s42.bind.model 130900 0 = some ⟨1, 0⟩ ∧ fieldSchema s42.bind.model 130900 254 = some ⟨64, 0⟩ := by decide

theorem witness_SchemaResolutionRaises :
    (s42.withInput .tx []).inp.dp = [] ∧ (s42.withInput .tx []).localAddr ≠ none ∧
    fieldSchema s42.bind.model 130900 77 = none ∧ fieldSchema s42.bind.model 130900 9 = some ⟨0, 0⟩ ∧
    fieldSchema s42.bind.model 130900 8 = some ⟨65, 0⟩ := by decide

theorem witness_UnsetAddressRaises :
    (State.reset.withInput .tx []).inp.dp = [] ∧ (State.reset.withInput .tx []).localAddr = none := ⟨rfl, rfl⟩

theorem witness_PackLittleEndian : (1 ≤ 1 ∧ 1 ≤ 64) ∧ 1 ≤ 64 ∧ 64 ≤ 64 ∧ packLE 0x1FF 9 = [0xFF, 0xFF] := by decide

theorem witness_IdentificationPairsFirst :
    (∃ t r m, exec (.buildRequest 130900) (s42.withInput .tx []) = .next t ∧ t.lastResult = some r ∧ r.msg = some m) ∧
    ∃ t r m, exec (.buildCommand 130900 0x23 0) (s42.withInput .tx []) = .next t ∧ t.lastResult = some r ∧
      r.msg = some m := ⟨⟨_, _, _, rfl, rfl, rfl⟩, ⟨_, _, _, rfl, rfl, rfl⟩⟩

theorem witness_BuiltMessagesSegment :
    s42.bind.GfPgnCarriesDestination ∧ (s42.withInput .tx []).localAddr = some 0x42 ∧ s42.bind.gfPgn = 0x1ED00 ∧
    (∃ t r m, exec (.buildRequest 130900) (s42.withInput .tx []) = .next t ∧ t.lastResult = some r ∧ r.msg = some m) ∧
    ∃ t r m, exec (.buildCommand 130900 0x23 254) (s42.withInput .tx []) = .next t ∧ t.lastResult = some r ∧
      r.msg = some m := ⟨⟨by decide, by decide⟩, rfl, rfl, ⟨_, _, _, rfl, rfl, rfl⟩, ⟨_, _, _, rfl, rfl, rfl⟩⟩

theorem witness_SendRequestFrames :
    (s42.withInput .tx []).inp.dp = [] ∧ (s42.withInput .tx []).localAddr = some 0x42 ∧
    (s42.withInput .tx []).bind.gfPgn = 0x1ED00 := ⟨rfl, rfl, rfl⟩

theorem witness_FormatLineText :
    (s42.withInput .tx (payload 0)).inp.dp.length ≤ 8 ∧ (s42.withInput .tx (payload 8)).inp.dp.length ≤ 8 ∧
    (s42.withInput .tx (payload 8)).inp.dp[7]? = some 0xAA := by decide

-- "1FFFFFFF Ff" CR LF (R106)
theorem witness_ParseLineReadsGrammar :
    IsLine (s42.withInput .rx
      [0x31, 0x46, 0x46, 0x46, 0x46, 0x46, 0x46, 0x46, 0x20, 0x46, 0x66, 0x0D, 0x0A]).inp.dp 0x1FFFFFFF [0xFF] := by
  have hF : IsHex 0x46 15 := by unfold IsHex; decide
  refine ⟨[0x31, 0x46, 0x46, 0x46, 0x46, 0x46, 0x46, 0x46], [1, 15, 15, 15, 15, 15, 15, 15], [(0x46, 0x66)], rfl, rfl, ?_,
    by decide, by decide, .cons ⟨15, 15, hF, ?_, rfl⟩ .nil⟩
  · exact .cons (by unfold IsHex; decide)
      (.cons hF (.cons hF (.cons hF (.cons hF (.cons hF (.cons hF (.cons hF .nil)))))))
  · unfold IsHex; decide

theorem witness_ParseLineRejectsOthers : ∀ id bytes, ¬ IsLine (s42.withInput .rx []).inp.dp id bytes := by
  rintro id bytes ⟨digits, values, pairs, h, -⟩
  have := congrArg List.length h
  simp at this

/-- The line of identifier 0 with no data (L2-LN-7). -/
def zeroLine : List Byte := [0x30, 0x30, 0x30, 0x30, 0x30, 0x30, 0x30, 0x30, 0x0D, 0x0A]

theorem witness_LineRoundTrip :
    (s42.withInput .tx (payload 8)).inp.dp.length ≤ 8 ∧
    exec .parseLine (s42.withInput .rx zeroLine) =
      .next ((s42.withInput .rx zeroLine).respond { status := 0x00, id := some 0, frames := [⟨0, []⟩] }) ∧
    (∀ b ∈ (s42.withInput .rx zeroLine).inp.dp, b.toNat < 0x61) ∧ (s42.withInput .tx []).inp.dp = [] :=
  ⟨by decide, rfl, by decide, rfl⟩

theorem witness_CfgReadValues : (busy.withInput .tx []).inp.dp = [] ∧ (State.reset.withInput .tx []).inp.dp = [] := ⟨rfl, rfl⟩

theorem witness_CfgWriteEffect :
    (busy.withInput .tx []).inp.dp = [] ∧ 0x07 < (8 : BitVec 8).toNat ∧ ¬ 0x07 < (7 : BitVec 8).toNat ∧
    0xFF < (0x100 : BitVec 32).toNat ∧ ¬ 0xFF < (0xFF : BitVec 32).toNat := by decide

theorem witness_WrittenAddressIsUsed :
    (busy.withInput .tx []).inp.dp = [] ∧
    ∃ t, exec (setAddr ((0xFF : Addr).setWidth 32)) (busy.withInput .tx []) = .next t ∧
      ∃ u r m, exec (.buildCommand 130900 0x23 4) { t with inp := ⟨.rx, [], ⟨150, -2⟩⟩ } = .next u ∧
        u.lastResult = some r ∧ r.msg = some m := ⟨rfl, _, rfl, _, _, _, rfl, rfl, rfl⟩

end Sys2Proof.Tests
end

section
/-! PROOFS, family 10_state.md. What a command writes, said once as a normal form of its next state; the rules by which
the table stays as R27 and R28 say; and the statements about the state that follow from them. -/

namespace Sys2Proof.Machine

variable {s t : State} {i : Instr} {id : CanId} {e : Entry} {r : Result}

/-! ## Results are well formed (R20, R65, R112) -/

theorem Result.Ok.of_raised (st : Status) : (Result.raised st).Ok := ⟨raised_wf st, by simp⟩

theorem Result.Ok.of_status_ok (hs : r.status = Status.code .ok) (hf : ∀ f ∈ r.frames, f.data.length ≤ 8) : r.Ok :=
  ⟨ok_wf hs, hf⟩

theorem AcceptEnds.exists_result (h : AcceptEnds id s t) : ∃ tbl r, t = (s.setTable tbl).respond r ∧ r.Ok := by
  obtain ⟨tbl, r, rfl, hr, -⟩ := h
  refine ⟨tbl, r, rfl, ?_⟩
  rcases hr with ⟨v, rfl, -⟩ | ⟨m, rfl⟩
  · exact .of_status_ok rfl (by simp)
  · exact .of_status_ok rfl (by simp)

/-! ## What a command writes (R29, R32) -/

/-- A command gives one well-formed answer and writes at most LOCAL_ADDR and T: the first by CFG_WRITE of register 0
alone, the second by ACCEPT and FP_FLUSH alone. Every other field of the next state is read off this form. -/
theorem exec_writes (h : exec i s = .next t) :
    ∃ (a : Option Addr) (tbl : Memory) (r : Result),
      t = { s with localAddr := a, table := tbl }.respond r ∧ r.Ok ∧
      (a = s.localAddr ∨ ∃ v, i = .cfgWrite 0 v ∧ v.toNat < 256 ∧ a = some (v.extractLsb' 0 8)) ∧
      (tbl = s.table ∨ i = .fpFlush ∨ ∃ id, i = .accept id) := by
  rcases exec_ends h with ⟨st, -, ht⟩ | ⟨r, ht, hs, -, hf⟩ | ⟨v, hi, hv, ht⟩ | ⟨hi, -, ht⟩ | ⟨id, hi, -, ha⟩
  · exact ⟨s.localAddr, s.table, _, ht, .of_raised st, .inl rfl, .inl rfl⟩
  · exact ⟨s.localAddr, s.table, r, ht, .of_status_ok hs hf, .inl rfl, .inl rfl⟩
  · exact ⟨_, s.table, _, ht, .of_status_ok rfl (by simp), .inr ⟨v, hi, hv, rfl⟩, .inl rfl⟩
  · exact ⟨s.localAddr, [], _, ht, .of_status_ok rfl (by simp), .inl rfl, .inr (.inl hi)⟩
  · obtain ⟨tbl, r, ht, hr⟩ := ha.exists_result
    exact ⟨s.localAddr, tbl, r, ht, hr, .inl rfl, .inr (.inr ⟨id, hi⟩)⟩

/-! ## The table stays as R27 and R28 say -/

theorem erase_count_lt_of_mem {tbl : Memory} (h : (id, e) ∈ tbl) : (tbl.erase id).count < tbl.count := by
  induction tbl with
  | nil => simp at h
  | cons q rest ih =>
    obtain ⟨k, f⟩ := q
    have hle := erase_count_le (t := rest) (id := id)
    simp only [Memory.erase, Memory.count] at *
    split
    · simp only [List.length_cons]; omega
    · have hrest : (id, e) ∈ rest := by
        rcases List.mem_cons.mp h with heq | hrest
        · cases heq; contradiction
        · exact hrest
      simpa using ih hrest

@[simp] theorem respond_tableOk : (s.respond r).TableOk ↔ s.TableOk := .rfl

@[simp] theorem latch_tableOk {p : Port} {c : Command} {rest : List Command} :
    (s.latch p c rest).TableOk ↔ s.TableOk := by simp [State.TableOk]

theorem tableOk_of_table_nil (h : s.table = []) : s.TableOk := by simp [State.TableOk, h, Memory.count]

theorem State.TableOk.setTable_erase (h : s.TableOk) : (s.setTable (s.table.erase id)).TableOk := by
  obtain ⟨hwf, hent, hslots⟩ := h
  exact ⟨erase_wf hwf, fun p hp => hent p (mem_erase.mp hp).1, fun n hn => erase_count_le.trans (hslots n hn)⟩

theorem State.TableOk.setTable_set (h : s.TableOk) (he : e.Ok)
    (hroom : ∀ n, s.bind.numFpSlots = some n → (s.table.erase id).count < n) :
    (s.setTable (s.table.set id e)).TableOk := by
  obtain ⟨hwf, hent, -⟩ := h
  refine ⟨set_wf hwf, fun p hp => ?_, fun n hn => ?_⟩
  · rcases mem_set.mp hp with rfl | ⟨hp, -⟩
    · exact he
    · exact hent p hp
  · rw [setTable_table, set_count]; exact hroom n hn

/-- Frame 0 writes six bytes of a longer message (R89). -/
theorem startEntry_ok {dp : List Byte} (h8 : 8 ≤ dp.length) (hlo : 6 < declaredLength dp)
    (hhi : declaredLength dp ≤ 223) : (startEntry dp).Ok :=
  ⟨by simp [startEntry, fpFirstChunk]; omega, rfl, hlo, hhi⟩

/-- Seven more bytes and the next counter keep R27's relation between them, while bytes are missing (R90). -/
theorem append_ok {v : List Byte} (h : e.Ok) (hv : v.length = 7) (hlt : e.acc + v.length < e.total) :
    (e.append v (e.last + 1)).Ok := by
  obtain ⟨hbuf, hacc, -, htotal⟩ := h
  exact ⟨by simp [hbuf], by simp only [append_acc, append_last]; omega, hlt, htotal⟩

theorem acceptFirst_tableOk (hs : s.TableOk) (h8 : 8 ≤ s.inp.dp.length) (h : acceptFirst id s = .next t) :
    t.TableOk := by
  rcases acceptFirst_cases h with ⟨r, rfl, -⟩ | ⟨hlo, hhi, hroom, rfl⟩
  · exact respond_tableOk.mpr hs.setTable_erase
  · exact respond_tableOk.mpr (hs.setTable_set (startEntry_ok h8 hlo hhi) (hasSlot_iff.mp hroom))

theorem acceptNext_tableOk {c : Nat} (hs : s.TableOk) (h8 : 8 ≤ s.inp.dp.length) (hget : s.table.get id = some e)
    (h : acceptNext id e c s = .next t) : t.TableOk := by
  rcases acceptNext_cases h with ⟨r, rfl, -⟩ | ⟨rfl, -, hlt, rfl⟩
  · exact respond_tableOk.mpr hs.setTable_erase
  · have hmem := mem_of_get hget
    have ⟨_, hent, hslots⟩ := hs
    have hseven : ((s.inp.dp.drop 1).take 7).length = 7 := by simp; omega
    refine respond_tableOk.mpr (hs.setTable_set (append_ok (hent _ hmem) hseven hlt) fun n hn => ?_)
    exact (erase_count_lt_of_mem hmem).trans_le (hslots n hn)

theorem execAccept_tableOk (hs : s.TableOk) (h : execAccept id s = .next t) : t.TableOk := by
  rcases execAccept_cases h with rfl | ⟨-, -, ⟨-, hidle⟩ | ⟨e, hget, hbusy⟩⟩
  · exact hs
  · rcases acceptIdle_cases hidle with ⟨-, -, h8, hfirst⟩ | ⟨v, -, -, rfl⟩ | ⟨-, rfl⟩
    · exact acceptFirst_tableOk hs h8 hfirst
    · exact hs
    · exact hs
  · rcases acceptBusy_cases hbusy with ⟨-, rfl⟩ | ⟨h8, -, hfirst⟩ | ⟨h8, -, hnext⟩
    · exact respond_tableOk.mpr hs.setTable_erase
    · exact acceptFirst_tableOk hs h8 hfirst
    · exact acceptNext_tableOk hs h8 hget hnext

theorem exec_tableOk (hs : s.TableOk) (h : exec i s = .next t) : t.TableOk := by
  rcases exec_ends h with ⟨st, -, rfl⟩ | ⟨r, rfl, -⟩ | ⟨v, -, -, rfl⟩ | ⟨-, -, rfl⟩ | ⟨id, rfl, -, -⟩
  · exact hs
  · exact hs
  · exact hs
  · exact tableOk_of_table_nil rfl
  · exact execAccept_tableOk hs h

/-! ## The invariant of the machine -/

theorem State.AnswersOk.respond (hs : s.AnswersOk) (hr : r.Ok) : (s.respond r).AnswersOk := by
  intro a ha
  rcases List.mem_append.mp ha with ha | ha
  · exact hs a ha
  · rw [List.mem_singleton.mp ha]; exact hr

@[simp] theorem latch_answersOk {p : Port} {c : Command} {rest : List Command} :
    (s.latch p c rest).AnswersOk ↔ s.AnswersOk := by simp [State.AnswersOk]

/-- A command needs no idle port to start from, and leaves one. -/
theorem exec_inv (ht : s.TableOk) (ha : s.AnswersOk) (h : exec i s = .next t) : t.Inv := by
  have htable := exec_tableOk ht h
  obtain ⟨a, tbl, r, rfl, hr, -, -⟩ := exec_writes h
  exact ⟨htable, State.AnswersOk.respond (s := { s with localAddr := a, table := tbl }) ha hr, rfl⟩

/-- Settles O16: along the three ways of a step. -/
theorem stepKeepsInvariant : Obligations.StepKeepsInvariant := by
  intro s t hs h
  rcases step_cases h with ⟨b, -, rfl⟩ | ⟨-, -, -, rfl⟩ | ⟨p, c, rest, -, -, -, hrun⟩
  · exact ⟨tableOk_of_table_nil rfl, hs.answers, rfl⟩
  · exact hs
  · have ht := latch_tableOk (p := p) (c := c) (rest := rest) |>.mpr hs.table
    have ha := latch_answersOk (p := p) (c := c) (rest := rest) |>.mpr hs.answers
    rcases hrun with ⟨i, -, hi⟩ | ⟨-, rfl⟩
    · exact exec_inv ht ha hi
    · exact ⟨ht, ha.respond (.of_raised _), rfl⟩

/-! ## LOCAL_ADDR (R24) -/

/-- Settles O14: of a step's endings only a command's can move LOCAL_ADDR, and of those only CFG_WRITE's. -/
theorem localAddrChangesOnlyByWrite : Obligations.LocalAddrChangesOnlyByWrite := by
  intro s t hn h hne
  rcases step_cases h with ⟨b, hb, -⟩ | ⟨-, -, -, rfl⟩ | ⟨p, c, rest, -, hp, hw, ⟨i, hd, hi⟩ | ⟨-, rfl⟩⟩
  · simp [hn] at hb
  · exact absurd rfl hne
  · obtain ⟨a, tbl, r, rfl, -, ha, -⟩ := exec_writes hi
    rcases ha with ha | ⟨v, rfl, hv, ha⟩
    · simp [ha] at hne
    · exact ⟨p, c, v, hp, by simp [hw], hd, hv, ha⟩
  · simp at hne

@[simp] theorem cfgRegOf_zero : cfgRegOf 0#8 = some .localAddr := rfl

/-- `SET_ADDR` of an address always succeeds, since its value fits the register (R62, R109). -/
theorem exec_setAddr {a : Addr} (hd : s.inp.dp = []) :
    exec (setAddr (a.setWidth 32)) s = .next ((s.setLocalAddr a).respond Result.ok) := by
  have hhigh : (a.setWidth 32).extractLsb' 8 24 = 0 := by ext j hj; simp
  have hlow : (a.setWidth 32).extractLsb' 0 8 = a := BitVec.eq_of_toNat_eq (by simpa using a.isLt)
  simp [exec, setAddr, execCfgWrite, withEmptyDp_of hd, hhigh, hlow]

theorem exec_cfgRead_localAddr_of {a : Addr} (hd : s.inp.dp = []) (ha : s.localAddr = some a) :
    exec (.cfgRead 0) s = .next (s.respond { Result.ok with cfgval := some (a.setWidth 32) }) := by
  simp [exec, execCfgRead, withEmptyDp_of hd, State.readCfg, ha]

theorem exec_cfgRead_localAddr_unset (hd : s.inp.dp = []) (ha : s.localAddr = none) :
    exec (.cfgRead 0) s = .next (s.respond (Result.raised .configNotSet)) := by
  simp [exec, execCfgRead, withEmptyDp_of hd, State.readCfg, ha]

theorem exec_buildRequest_of {cpgn : Pgn} {a : Addr} (hd : s.inp.dp = []) (ha : s.localAddr = some a) :
    exec (.buildRequest cpgn) s = .next (s.respond { Result.ok with
      msg := some (groupFunctionMessage s.bind a broadcast (requestPayload cpgn)) }) := by
  simp [exec, execBuildRequest, withEmptyDp_of hd, ha]

theorem exec_buildRequest_unset {cpgn : Pgn} (hd : s.inp.dp = []) (ha : s.localAddr = none) :
    exec (.buildRequest cpgn) s = .next (s.respond (Result.raised .configNotSet)) := by
  simp [exec, execBuildRequest, withEmptyDp_of hd, ha]

theorem exec_buildCommand_unset {cpgn : Pgn} {dst : Addr} {fidx : BitVec 8} (hd : s.inp.dp = [])
    (ha : s.localAddr = none) :
    exec (.buildCommand cpgn dst fidx) s = .next (s.respond (Result.raised .configNotSet)) := by
  simp [exec, execBuildCommand, withEmptyDp_of hd, ha]

/-- A message BUILD_COMMAND answers comes from LOCAL_ADDR (R72, R99). -/
theorem exec_buildCommand_src {cpgn : Pgn} {dst : Addr} {fidx : BitVec 8} {m : PgnMessage}
    (h : exec (.buildCommand cpgn dst fidx) s = .next t) (hr : t.lastResult = some r) (hm : r.msg = some m) :
    s.localAddr = some m.src := by
  rcases execBuildCommand_cases h with ⟨st, -, rfl⟩ | ⟨a, fd, -, ha, -, rfl⟩
  · rw [respond_lastResult] at hr; cases hr; cases hm
  · rw [respond_lastResult] at hr; cases hr; cases hm; exact ha

/-- Settles O60: SET_ADDR leaves the address in LOCAL_ADDR, which the three commands read. -/
theorem writtenAddressIsUsed : Obligations.WrittenAddressIsUsed := by
  intro a cpgn p vp s t hd h
  rw [exec_setAddr hd] at h
  cases h
  refine ⟨rfl, exec_cfgRead_localAddr_of rfl rfl, ⟨_, _, _, exec_buildRequest_of rfl rfl, respond_lastResult _, rfl, rfl⟩, ?_⟩
  intro dst fidx u r m hu hr hm
  exact (Option.some.inj (exec_buildCommand_src hu hr hm)).symm

/-- Settles O49: each command's own equation for an UNSET address. -/
theorem unsetAddressRaises : Obligations.UnsetAddressRaises := by
  intro cpgn dst fidx s hd ha
  exact ⟨exec_buildRequest_unset hd ha, exec_buildCommand_unset hd ha, exec_cfgRead_localAddr_unset hd ha⟩

/-! ## FP_ACTIVE (R25) -/

/-- The identifiers that have an entry. -/
def Memory.ids (tbl : Memory) : List CanId := tbl.map Prod.fst

theorem mem_ids {tbl : Memory} : id ∈ tbl.ids ↔ tbl.get id ≠ none := by
  constructor
  · induction tbl with
    | nil => simp [Memory.ids]
    | cons q rest ih =>
      obtain ⟨k, f⟩ := q
      intro h
      simp only [Memory.get]
      split
      · simp
      · rename_i hne
        rcases List.mem_cons.mp h with heq | hrest
        · exact absurd heq.symm hne
        · exact ih hrest
  · intro h
    obtain ⟨e, he⟩ := Option.ne_none_iff_exists'.mp h
    exact List.mem_map.mpr ⟨_, mem_of_get he, rfl⟩

theorem ids_length {tbl : Memory} : tbl.ids.length = tbl.count := List.length_map _

theorem ids_nodup {tbl : Memory} (h : tbl.wf = true) : tbl.ids.Nodup :=
  List.pairwise_map.mpr ((wf_iff.mp h).imp fun hlt heq => absurd (congrArg BitVec.toNat heq) (Nat.ne_of_lt hlt))

/-- Settles O19: the rising identifiers of T are the list counted. -/
theorem fpActiveCountsIdentifiers : Obligations.FpActiveCountsIdentifiers := by
  intro s hwf
  exact ⟨s.table.ids, ids_nodup hwf, fun _ => mem_ids, by rw [ids_length]; rfl⟩

/-! ## The frame of a command, and of a step up to it (R18, R19, R32) -/

/-- Settles O20: read off the form of the next state. -/
theorem commandFrame : Obligations.CommandFrame := by
  intro i s t h
  obtain ⟨a, tbl, r, rfl, -, ha, htbl⟩ := exec_writes h
  refine ⟨rfl, rfl, rfl, rfl, rfl, rfl, ⟨r, rfl⟩, fun hacc hflush => ?_, fun hwrite => ?_⟩
  · rcases htbl with rfl | hi | ⟨id, hi⟩
    · exact ⟨rfl, fun _ _ => rfl⟩
    · exact absurd hi hflush
    · exact absurd hi (hacc id)
  · rcases ha with rfl | ⟨v, hi, -⟩
    · rfl
    · exact absurd hi (hwrite v)

/-- With no reset pending, a step runs what the first word of the port served decodes to. -/
theorem step_eq_exec {p : Port} {c : Command} {rest : List Command} (hn : s.resetIn = none)
    (hp : s.nextPort = some p) (hw : s.waiting p = c :: rest) (hd : decode c.cw = .ok i) :
    step s = exec i (s.latch p c rest) := by
  simp [step, hn, hp, stepOn, fetch_of_waiting hw, hd]

/-- Settles O5: the state that executes is the one in which the command is latched. -/
theorem stepRunsDecodedCommand : Obligations.StepRunsDecodedCommand := by
  intro s p c rest i hn hp hw hd
  exact ⟨s.latch p c rest, step_eq_exec hn hp hw hd, latch_inp .., latch_waiting_self c rest,
    fun _ hq => latch_waiting_of_ne hq c rest, latch_localAddr .., latch_table .., latch_bind .., latch_answers ..,
    (latch_resetIn ..).trans hn, latch_taken ..⟩

end Sys2Proof.Machine
end

section
/-! PROOFS, family 20_memory.md. Every command ends, given R27's room for the bytes it writes; what ACCEPT and FP_FLUSH do
alike from two states that agree on what they read; and the statements on the order of the commands. -/

namespace Sys2Proof.Machine

variable {s s' t u : State} {i : Instr} {id : CanId} {e : Entry} {c : Nat} {body : Outcome}

/-! ## Every command ends (R37, R93) -/

theorem onRxPort_ends (h : ∃ t, body = .next t) : ∃ t, onRxPort s body = .next t := by
  by_cases hp : s.inp.port = .rx
  · rwa [onRxPort_of hp]
  · exact ⟨_, onRxPort_else hp⟩

theorem withEmptyDp_ends (h : ∃ t, body = .next t) : ∃ t, withEmptyDp s body = .next t := by
  by_cases hd : s.inp.dp = []
  · rwa [withEmptyDp_of hd]
  · exact ⟨_, withEmptyDp_else hd⟩

/-- The body may rely on the length that was checked. -/
theorem withFrameDp_ends (h : s.inp.dp.length ≤ 8 → ∃ t, body = .next t) : ∃ t, withFrameDp s body = .next t := by
  by_cases hd : s.inp.dp.length ≤ 8
  · rw [withFrameDp_of hd]; exact h hd
  · exact ⟨_, withFrameDp_else hd⟩

/-- Every command but ACCEPT ends in every state: only ACCEPT writes a buffer (R36). -/
theorem exec_next_of_ne_accept (hi : ∀ id, i ≠ .accept id) : ∃ t, exec i s = .next t := by
  cases i with
  | nop => exact withEmptyDp_ends ⟨_, rfl⟩
  | encodeId p g a d => refine withEmptyDp_ends ?_; split <;> exact ⟨_, rfl⟩
  | decodeId id => exact withEmptyDp_ends ⟨_, rfl⟩
  | segment p g a d =>
    simp only [exec, execSegment]
    split
    · exact ⟨_, rfl⟩
    · split <;> exact ⟨_, rfl⟩
  | accept id => exact absurd rfl (hi id)
  | fpFlush => exact onRxPort_ends (withEmptyDp_ends ⟨_, rfl⟩)
  | buildRequest g => refine withEmptyDp_ends ?_; split <;> exact ⟨_, rfl⟩
  | buildCommand g d f =>
    refine withEmptyDp_ends ?_
    split
    · exact ⟨_, rfl⟩
    · split <;> exact ⟨_, rfl⟩
  | formatLine id => exact withFrameDp_ends fun _ => ⟨_, rfl⟩
  | parseLine => simp only [exec, execParseLine]; split <;> exact ⟨_, rfl⟩
  | cfgRead reg =>
    refine withEmptyDp_ends ?_
    split
    · exact ⟨_, rfl⟩
    · split <;> exact ⟨_, rfl⟩
  | cfgWrite reg v =>
    refine withEmptyDp_ends ?_
    split
    · exact ⟨_, rfl⟩
    · split <;> exact ⟨_, rfl⟩
    · exact ⟨_, rfl⟩

/-- Frame 0 writes at offset 0 of an empty buffer, which always has room (R89). -/
theorem acceptFirst_next : ∃ t, acceptFirst id s = .next t := by
  simp only [acceptFirst]
  split
  · exact ⟨_, rfl⟩
  · split
    · exact ⟨_, rfl⟩
    · split <;> exact ⟨_, rfl⟩

theorem acceptNext_next (hw : e.canWrite e.acc ((s.inp.dp.drop 1).take fpChunk).length = true) :
    ∃ t, acceptNext id e c s = .next t := by
  simp only [acceptNext, hw, if_true]
  split
  · split <;> exact ⟨_, rfl⟩
  · exact ⟨_, rfl⟩

theorem acceptIdle_next : ∃ t, acceptIdle id s = .next t := by
  simp only [acceptIdle]
  split
  · split
    · exact ⟨_, rfl⟩
    · split
      · exact acceptFirst_next
      · exact ⟨_, rfl⟩
  · exact ⟨_, rfl⟩

/-- Only a frame of eight bytes reaches the write, and R27 leaves room for its seven (R37). -/
theorem acceptBusy_next (he : e.Ok) (h8 : s.inp.dp.length ≤ 8) : ∃ t, acceptBusy id e s = .next t := by
  simp only [acceptBusy, maxDlc]
  split
  · exact ⟨_, rfl⟩
  · split
    · exact acceptFirst_next
    · have hseven : ((s.inp.dp.drop 1).take fpChunk).length = 7 := by simp [fpChunk]; omega
      exact acceptNext_next (hseven ▸ canWrite_of_ok he)

theorem execAccept_next (hs : s.TableOk) : ∃ t, execAccept id s = .next t := by
  refine onRxPort_ends (withFrameDp_ends fun h8 => ?_)
  split
  · exact acceptIdle_next
  · rename_i e hget
    obtain ⟨-, hent, -⟩ := hs
    exact acceptBusy_next (hent _ (mem_of_get hget)) h8

theorem exec_next (hs : s.TableOk) : ∃ t, exec i s = .next t := by
  by_cases hi : ∃ id, i = .accept id
  · obtain ⟨id, rfl⟩ := hi
    exact execAccept_next hs
  · exact exec_next_of_ne_accept fun id h => hi ⟨id, h⟩

/-- A port runs what its first command decodes to. -/
theorem stepOn_of_decode {p : Port} {cmd : Command} {rest : List Command} (hw : s.waiting p = cmd :: rest)
    (hd : decode cmd.cw = .ok i) : stepOn p s = exec i (s.latch p cmd rest) := by
  simp [stepOn, fetch_of_waiting hw, hd]

/-- A word that decodes to nothing raises IllegalOperation (R59). -/
theorem stepOn_of_decode_error {p : Port} {cmd : Command} {rest : List Command} {x : DecodeError}
    (hw : s.waiting p = cmd :: rest) (hd : decode cmd.cw = .error x) :
    stepOn p s = .next ((s.latch p cmd rest).respond (Result.raised .illegalOperation)) := by
  simp [stepOn, fetch_of_waiting hw, hd]

theorem stepOn_of_empty {p : Port} (hw : s.waiting p = []) : stepOn p s = .next s := by
  simp [stepOn, State.fetch, hw]

theorem stepOn_next {p : Port} (hs : s.TableOk) : ∃ t, stepOn p s = .next t := by
  cases hw : s.waiting p with
  | nil => exact ⟨_, stepOn_of_empty hw⟩
  | cons cmd rest =>
    cases hd : decode cmd.cw with
    | error x => exact ⟨_, stepOn_of_decode_error hw hd⟩
    | ok i => rw [stepOn_of_decode hw hd]; exact exec_next (latch_tableOk.mpr hs)

/-- Settles O18: a step is a reset, nothing, or one port's command, and each ends. -/
theorem stepNeverStops : Obligations.StepNeverStops := by
  intro s hs
  simp only [step]
  split
  · exact ⟨_, rfl⟩
  · split
    · exact ⟨_, rfl⟩
    · exact stepOn_next hs

/-! ## One command of one port at a time (R47) -/

/-- A command leaves the waiting commands and gives one answer on its port. -/
theorem exec_waiting_answers (h : exec i s = .next t) :
    (∀ q, t.waiting q = s.waiting q) ∧ ∃ r, t.answers = s.answers ++ [⟨s.inp.port, r⟩] := by
  obtain ⟨a, tbl, r, rfl, -⟩ := exec_writes h
  exact ⟨fun q => by cases q <;> rfl, r, rfl⟩

/-- Settles O9: what taking the command removes, and what running it adds. -/
theorem oneCommandInPortOrder : Obligations.OneCommandInPortOrder := by
  intro s t hn h
  rcases step_cases h with ⟨b, hb, -⟩ | ⟨-, htx, hrx, rfl⟩ | ⟨p, cmd, rest, -, -, hw, hrun⟩
  · simp [hn] at hb
  · exact .inl ⟨htx, hrx, rfl⟩
  · have hend : (∀ q, t.waiting q = (s.latch p cmd rest).waiting q) ∧
        ∃ r, t.answers = (s.latch p cmd rest).answers ++ [⟨p, r⟩] := by
      rcases hrun with ⟨i, -, hi⟩ | ⟨-, rfl⟩
      · exact exec_waiting_answers hi
      · exact ⟨fun q => respond_waiting .., _, respond_answers ..⟩
    obtain ⟨hwait, r, hans⟩ := hend
    refine .inr ⟨p, cmd, r, ?_, fun q hq => ?_, by rw [hans, latch_answers]⟩
    · rw [hwait, latch_waiting_self, hw]
    · rw [hwait, latch_waiting_of_ne hq]

/-! ## A continuation frame presented twice (R45, R90) -/

/-- A frame of eight bytes that is not frame 0, for an identifier with an entry, goes to R90. -/
theorem exec_accept_continuation {h : Byte} {data : List Byte} (hp : s.inp.port = .rx) (hdp : s.inp.dp = h :: data)
    (h7 : data.length = 7) (hc : h.toNat % 32 ≠ 0) (hget : s.table.get id = some e) :
    exec (.accept id) s = acceptNext id e (h.toNat % 32) s := by
  have h8 : s.inp.dp.length = 8 := by simp [hdp, h7]
  have hcount : counterOf s.inp.dp = h.toNat % 32 := by rw [hdp, counterOf_cons]
  have hbusy : exec (.accept id) s = acceptBusy id e s := by
    refine (execAccept_of hp h8.le).trans ?_
    simp only [hget]
  rw [hbusy, acceptBusy, if_neg h8.not_lt, hcount, if_neg hc]

theorem acceptNext_of_ne (hc : c ≠ e.last + 1) :
    acceptNext id e c s =
      .next ((s.setTable (s.table.erase id)).respond (Result.verdictOnly (.discarded .outOfSequence))) := by
  rw [acceptNext, if_neg hc, complete_eq]

/-- A continuation frame that leaves an entry leaves its own counter in it. -/
theorem acceptNext_last (h : acceptNext id e c s = .next t) (hget : t.table.get id ≠ none) :
    ∃ f, t.table.get id = some f ∧ f.last = c := by
  rcases acceptNext_cases h with ⟨r, rfl, -⟩ | ⟨-, -, -, rfl⟩
  · exact absurd get_erase_self hget
  · exact ⟨_, get_set_self, append_last ..⟩

/-- Settles O42: the first presentation leaves its counter in the entry, which the second repeats. -/
theorem repeatedContinuationIsDropped : Obligations.RepeatedContinuationIsDropped := by
  intro id h data s t hc h7 hget hfirst hleft
  obtain ⟨e, he⟩ := Option.ne_none_iff_exists'.mp hget
  rw [exec_accept_continuation (s := s.withInput .rx (h :: data)) rfl rfl h7 hc he] at hfirst
  obtain ⟨f, hf, hlast⟩ := acceptNext_last hfirst hleft
  rw [exec_accept_continuation (s := t.withInput .rx (h :: data)) rfl rfl h7 hc hf]
  exact acceptNext_of_ne (by omega)

/-! ## What ACCEPT and FP_FLUSH read (R45, R48) -/

/-- Two states in which ACCEPT and FP_FLUSH read the same: T, the parameters, and the port, DP and VP of the command. -/
structure ReadAlike (s s' : State) : Prop where
  table : s.table = s'.table
  bind : s.bind = s'.bind
  inp : s.inp = s'.inp

/-- Two endings alike: from either state the same table and the same result, or the same fault. -/
inductive EndAlike (s s' : State) : Outcome → Outcome → Prop where
  | answer (tbl : Memory) (r : Result) :
    EndAlike s s' (.next ((s.setTable tbl).respond r)) (.next ((s'.setTable tbl).respond r))
  | fault (f : Fault) : EndAlike s s' (.fault f) (.fault f)

theorem ReadAlike.respond (h : ReadAlike s s') (r : Result) :
    EndAlike s s' (.next (s.respond r)) (.next (s'.respond r)) := by
  have hx := EndAlike.answer (s := s) (s' := s') s.table r
  rwa [setTable_self, h.table, setTable_self] at hx

theorem onRxPort_alike {body' : Outcome} (hr : ReadAlike s s') (h : EndAlike s s' body body') :
    EndAlike s s' (onRxPort s body) (onRxPort s' body') := by
  simp only [onRxPort, hr.inp]
  split
  · exact h
  · exact hr.respond _

theorem withEmptyDp_alike {body' : Outcome} (hr : ReadAlike s s') (h : EndAlike s s' body body') :
    EndAlike s s' (withEmptyDp s body) (withEmptyDp s' body') := by
  simp only [withEmptyDp, hr.inp]
  split
  · exact h
  · exact hr.respond _

theorem withFrameDp_alike {body' : Outcome} (hr : ReadAlike s s') (h : EndAlike s s' body body') :
    EndAlike s s' (withFrameDp s body) (withFrameDp s' body') := by
  simp only [withFrameDp, hr.inp]
  split
  · exact h
  · exact hr.respond _

theorem acceptFirst_alike (hr : ReadAlike s s') : EndAlike s s' (acceptFirst id s) (acceptFirst id s') := by
  simp only [acceptFirst, hr.table, hr.bind, hr.inp]
  split
  · exact .answer ..
  · split
    · exact .answer ..
    · split <;> exact .answer ..

theorem acceptNext_alike (hr : ReadAlike s s') : EndAlike s s' (acceptNext id e c s) (acceptNext id e c s') := by
  simp only [acceptNext, hr.table, hr.inp]
  split
  · split
    · split <;> exact .answer ..
    · exact .fault _
  · exact .answer ..

theorem acceptIdle_alike (hr : ReadAlike s s') : EndAlike s s' (acceptIdle id s) (acceptIdle id s') := by
  simp only [acceptIdle, hr.bind, hr.inp]
  split
  · split
    · exact hr.respond _
    · split
      · exact acceptFirst_alike hr
      · exact hr.respond _
  · exact hr.respond _

theorem acceptBusy_alike (hr : ReadAlike s s') : EndAlike s s' (acceptBusy id e s) (acceptBusy id e s') := by
  simp only [acceptBusy, hr.table, hr.inp]
  split
  · exact .answer ..
  · split
    · exact acceptFirst_alike hr
    · exact acceptNext_alike hr

theorem execAccept_alike (hr : ReadAlike s s') : EndAlike s s' (execAccept id s) (execAccept id s') := by
  refine onRxPort_alike hr (withFrameDp_alike hr ?_)
  rw [hr.table]
  split
  · exact acceptIdle_alike hr
  · exact acceptBusy_alike hr

theorem execFpFlush_alike (hr : ReadAlike s s') : EndAlike s s' (execFpFlush s) (execFpFlush s') :=
  onRxPort_alike hr (withEmptyDp_alike hr (.answer [] _))

/-! ## The order of the RX commands decides T and the verdicts (R48) -/

/-- What R48 lets T and the verdicts depend on: T itself, the parameters, and the RX commands still to come. -/
def State.rxView (s : State) : Memory × Binding × List Command := (s.table, s.bind, s.rx)

theorem rxView_eq_iff : s.rxView = s'.rxView ↔ s.table = s'.table ∧ s.bind = s'.bind ∧ s.rx = s'.rx := by
  simp [State.rxView]

/-- From `s` to `t` nothing that RX sees has changed, and no verdict was given. -/
structure UnseenByRx (s t : State) : Prop where
  view : t.rxView = s.rxView
  verdicts : t.rxVerdicts = s.rxVerdicts

/-- From `s` to `t` and from `s'` to `u` the same happened on RX: the views agree, and the same verdicts were given. -/
structure AlikeOnRx (s s' t u : State) : Prop where
  view : t.rxView = u.rxView
  verdicts : ∃ given, t.rxVerdicts = s.rxVerdicts ++ given ∧ u.rxVerdicts = s'.rxVerdicts ++ given

theorem UnseenByRx.refl : UnseenByRx s s := ⟨rfl, rfl⟩

theorem UnseenByRx.trans (h : UnseenByRx s t) (h' : UnseenByRx t u) : UnseenByRx s u :=
  ⟨h'.view.trans h.view, h'.verdicts.trans h.verdicts⟩

theorem AlikeOnRx.of_unseen (h : s.rxView = s'.rxView) (ht : UnseenByRx s t) (hu : UnseenByRx s' u) :
    AlikeOnRx s s' t u :=
  ⟨ht.view.trans (h.trans hu.view.symm), [], by simpa using ht.verdicts, by simpa using hu.verdicts⟩

theorem AlikeOnRx.trans {t' u' : State} (h : AlikeOnRx s s' t u) (h' : AlikeOnRx t u t' u') : AlikeOnRx s s' t' u' := by
  obtain ⟨-, given, ht, hu⟩ := h
  obtain ⟨hview, given', ht', hu'⟩ := h'
  exact ⟨hview, given ++ given', by rw [ht', ht, List.append_assoc], by rw [hu', hu, List.append_assoc]⟩

theorem AlikeOnRx.of_unseen_left {m : State} (hm : UnseenByRx s m) (h : AlikeOnRx m s' t u) : AlikeOnRx s s' t u := by
  obtain ⟨hview, given, ht, hu⟩ := h
  exact ⟨hview, given, by rw [ht, hm.verdicts], hu⟩

theorem respond_unseen {r : Result} (hv : r.verdict = none) : UnseenByRx s (s.respond r) :=
  ⟨rfl, by simp [respond_rxVerdicts, hv]⟩

theorem setLocalAddr_unseen {a : Addr} : UnseenByRx s (s.setLocalAddr a) := ⟨rfl, rfl⟩

theorem latch_tx_unseen (cmd : Command) (rest : List Command) : UnseenByRx s (s.latch .tx cmd rest) := ⟨rfl, rfl⟩

/-- A command off the RX port, or one that is neither ACCEPT nor FP_FLUSH, is not seen (R45, R121). -/
theorem exec_unseen (hi : s.inp.port ≠ .rx ∨ i ≠ .fpFlush ∧ ∀ id, i ≠ .accept id) (h : exec i s = .next t) :
    UnseenByRx s t := by
  rcases exec_ends h with ⟨st, -, rfl⟩ | ⟨r, rfl, -, hv, -⟩ | ⟨v, -, -, rfl⟩ | ⟨hf, hp, -⟩ | ⟨id, ha, hp, -⟩
  · exact respond_unseen rfl
  · exact respond_unseen hv
  · exact setLocalAddr_unseen.trans (respond_unseen rfl)
  · rcases hi with hi | ⟨hi, -⟩
    · exact absurd hp hi
    · exact absurd hf hi
  · rcases hi with hi | ⟨-, hi⟩
    · exact absurd hp hi
    · exact absurd ha (hi id)

/-- Endings alike, from states that RX sees alike, are alike on RX. -/
theorem EndAlike.alikeOnRx {o : Outcome} (h : EndAlike s s' (.next t) o) (hv : s.rxView = s'.rxView)
    (hi : s.inp = s'.inp) : ∃ u, o = .next u ∧ AlikeOnRx s s' t u := by
  obtain ⟨-, hb, hx⟩ := rxView_eq_iff.mp hv
  cases h with
  | answer tbl r =>
    refine ⟨_, rfl, rxView_eq_iff.mpr ⟨rfl, hb, hx⟩, _, respond_rxVerdicts r, ?_⟩
    rw [respond_rxVerdicts, setTable_rxVerdicts, setTable_inp, setTable_inp, hi]

theorem exec_alikeOnRx (hv : s.rxView = s'.rxView) (hi : s.inp = s'.inp) (h : exec i s = .next t) :
    ∃ u, exec i s' = .next u ∧ AlikeOnRx s s' t u := by
  obtain ⟨ht, hb, -⟩ := rxView_eq_iff.mp hv
  have hr : ReadAlike s s' := ⟨ht, hb, hi⟩
  by_cases hseen : i = .fpFlush ∨ ∃ id, i = .accept id
  · have hend : EndAlike s s' (exec i s) (exec i s') := by
      rcases hseen with rfl | ⟨id, rfl⟩
      · exact execFpFlush_alike hr
      · exact execAccept_alike hr
    rw [h] at hend
    exact hend.alikeOnRx hv hi
  · have hflush : i ≠ .fpFlush := fun hf => hseen (.inl hf)
    have haccept : ∀ id, i ≠ .accept id := fun id ha => hseen (.inr ⟨id, ha⟩)
    obtain ⟨u, hu⟩ := exec_next_of_ne_accept (s := s') haccept
    exact ⟨u, hu, .of_unseen hv (exec_unseen (.inr ⟨hflush, haccept⟩) h) (exec_unseen (.inr ⟨hflush, haccept⟩) hu)⟩

theorem stepOn_tx_unseen (h : stepOn .tx s = .next t) : UnseenByRx s t := by
  cases hw : s.waiting .tx with
  | nil => rw [stepOn_of_empty hw] at h; cases h; exact .refl
  | cons cmd rest =>
    refine (latch_tx_unseen cmd rest).trans ?_
    cases hd : decode cmd.cw with
    | error x => rw [stepOn_of_decode_error hw hd] at h; cases h; exact respond_unseen rfl
    | ok i => rw [stepOn_of_decode hw hd] at h; exact exec_unseen (.inl (by simp)) h

theorem stepOn_rx_alike (hv : s.rxView = s'.rxView) (h : stepOn .rx s = .next t) :
    ∃ u, stepOn .rx s' = .next u ∧ AlikeOnRx s s' t u := by
  obtain ⟨ht, hb, hx⟩ := rxView_eq_iff.mp hv
  cases hw : s.waiting .rx with
  | nil =>
    rw [stepOn_of_empty hw] at h
    cases h
    exact ⟨s', stepOn_of_empty (hx.symm.trans hw), .of_unseen hv .refl .refl⟩
  | cons cmd rest =>
    have hw' : s'.waiting .rx = cmd :: rest := hx.symm.trans hw
    have hlatch : AlikeOnRx s s' (s.latch .rx cmd rest) (s'.latch .rx cmd rest) :=
      ⟨rxView_eq_iff.mpr ⟨ht, hb, rfl⟩, [], by simp, by simp⟩
    cases hd : decode cmd.cw with
    | error x =>
      rw [stepOn_of_decode_error hw hd] at h
      cases h
      exact ⟨_, stepOn_of_decode_error hw' hd,
        hlatch.trans (.of_unseen hlatch.view (respond_unseen rfl) (respond_unseen rfl))⟩
    | ok i =>
      rw [stepOn_of_decode hw hd] at h
      rw [stepOn_of_decode hw' hd]
      obtain ⟨u, hu, halike⟩ := exec_alikeOnRx hlatch.view rfl h
      exact ⟨u, hu, hlatch.trans halike⟩

theorem runPorts_cons {p : Port} {ps : List Port} (h : runPorts (p :: ps) s = .next t) :
    ∃ m, stepOn p s = .next m ∧ runPorts ps m = .next t := by
  simp only [runPorts] at h
  split at h
  · exact ⟨_, ‹_›, h⟩
  · cases h
  · cases h

theorem runPorts_cons_of {p : Port} {ps : List Port} (h : stepOn p s = .next t) :
    runPorts (p :: ps) s = runPorts ps t := by simp [runPorts, h]

/-- The simulation along a schedule: a TX turn is skipped, and an RX turn is taken by both. -/
theorem runPorts_alikeOnRx {schedule : List Port} (hv : s.rxView = s'.rxView) (h : runPorts schedule s = .next t) :
    ∃ u, runPorts (schedule.filter (· == .rx)) s' = .next u ∧ AlikeOnRx s s' t u := by
  induction schedule generalizing s s' with
  | nil => cases h; exact ⟨s', rfl, .of_unseen hv .refl .refl⟩
  | cons p ps ih =>
    obtain ⟨m, hstep, hrest⟩ := runPorts_cons h
    cases p with
    | tx =>
      have hskip := stepOn_tx_unseen hstep
      obtain ⟨u, hu, halike⟩ := ih (hskip.view.trans hv) hrest
      exact ⟨u, hu, halike.of_unseen_left hskip⟩
    | rx =>
      obtain ⟨m', hstep', hmid⟩ := stepOn_rx_alike hv hstep
      obtain ⟨u, hu, halike⟩ := ih hmid.view hrest
      exact ⟨u, (runPorts_cons_of hstep').trans hu, hmid.trans halike⟩

/-- Settles O15: the simulation, read off its end. -/
theorem rxVerdictsIgnoreTx : Obligations.RxVerdictsIgnoreTx := by
  intro schedule s s' t h ht hb hx
  obtain ⟨u, hu, hview, given, hgiven, hgiven'⟩ := runPorts_alikeOnRx (rxView_eq_iff.mpr ⟨ht.symm, hb.symm, hx.symm⟩) h
  obtain ⟨htable, -, hrx⟩ := rxView_eq_iff.mp hview
  exact ⟨u, given, hu, htable.symm, hrx.symm, hgiven, hgiven'⟩

end Sys2Proof.Machine
end

section
/-! PROOFS, family 30_encoding.md. A field of a word read after it is written, and written after it is read; what each row of
the opcode map selects; from these the decoder and the encoder as each other's inverse. Then the commands that are refused,
the frames SEGMENT emits, and SEND_REQUEST. -/

namespace Sys2Proof

variable {k lo m n : Nat} {cw : CommandWord} {row : OpcodeRow}

/-! ## Fields written and read (R55) -/

theorem field_or (x y : CommandWord) : field (x ||| y) lo n = field x lo n ||| field y lo n :=
  BitVec.extractLsb'_or

theorem field_and (x y : CommandWord) : field (x &&& y) lo n = field x lo n &&& field y lo n :=
  BitVec.extractLsb'_and

theorem field_shifted (x : BitVec n) (h : lo + n ≤ 64) : field (x.setWidth 64 <<< lo) lo n = x :=
  eq_of_bits fun j hj => by simp [field_bit _ _ _ _ hj, show lo + j < 64 by omega]

/-- A field reads nothing of an operand written beside it. -/
theorem field_shifted_disjoint (x : BitVec m) (h : k + m ≤ lo ∨ lo + n ≤ k) :
    field (x.setWidth 64 <<< k) lo n = 0 :=
  eq_of_bits fun j hj => by
    rw [field_bit _ _ _ _ hj]
    rcases h with habove | hbelow
    · simp [BitVec.getLsbD_of_ge x (lo + j - k) (by omega)]
    · simp [show lo + j < k by omega]

theorem field_encodeOp (op : BitVec 8) (h : 8 ≤ lo) : field (encodeOp op) lo n = 0 := by
  simpa [encodeOp] using field_shifted_disjoint (k := 0) (n := n) op (.inl (by omega))

/-- A field that is read and written back is the word under the field's own mask. -/
theorem shifted_field (cw : CommandWord) (lo n : Nat) :
    (field cw lo n).setWidth 64 <<< lo = cw &&& (BitVec.allOnes n).setWidth 64 <<< lo :=
  eq_of_bits fun j hj => by
    by_cases hlo : j < lo
    · simp [hlo]
    · simp [field, hj, hlo, show lo + (j - lo) = j by omega, Bool.and_comm]

/-! ## The opcode map (R56) -/

/-- A row's match is its opcode alone, and its mask tests the whole opcode byte. -/
theorem opcodeRows_match : ∀ row ∈ opcodeRows,
    row.value = encodeOp row.opcode ∧ row.value &&& row.mask = row.value ∧ field row.mask 0 8 = BitVec.allOnes 8 := by
  decide

theorem rowOf?_opcode : ∀ row ∈ opcodeRows, rowOf? row.opcode = some row := by
  simp only [opcodeRows, List.forall_mem_cons, List.not_mem_nil]
  exact ⟨rfl, rfl, rfl, rfl, rfl, rfl, rfl, rfl, rfl, rfl, rfl, rfl, nofun⟩

theorem opcodeOf_of_selected (h : row ∈ opcodeRows) (hm : cw &&& row.mask = row.value) : opcodeOf cw = row.opcode := by
  obtain ⟨hvalue, -, hmask⟩ := opcodeRows_match row h
  calc opcodeOf cw = field cw 0 8 &&& field row.mask 0 8 := by rw [hmask, BitVec.and_allOnes, opcodeOf]
    _ = opcodeOf row.value := by rw [← field_and, hm, opcodeOf]
    _ = row.opcode := by rw [hvalue, opcodeOf_of_bits fun _ hj => encodeOp_bit _ hj]

theorem decode_of_selected (h : row ∈ opcodeRows) (hm : cw &&& row.mask = row.value) : decode cw = .ok (row.read cw) :=
  decode_of_row (opcodeOf_of_selected h hm ▸ rowOf?_opcode row h) hm

theorem decode_of_unselected (h : ∀ row ∈ opcodeRows, cw &&& row.mask ≠ row.value) : ∃ e, decode cw = .error e := by
  cases hd : decode cw with
  | error e => exact ⟨e, rfl⟩
  | ok i =>
    obtain ⟨row, hrow, hm, -⟩ := decode_cases hd
    obtain ⟨hmem, -⟩ := rowOf?_cases hrow
    exact absurd hm (h row hmem)

/-- Settles O3: the mask tests the opcode byte, so a selected row is the one its opcode finds. -/
theorem decodeSelectsMatchingRow : Obligations.DecodeSelectsMatchingRow :=
  fun _ => ⟨fun _ h hm => decode_of_selected h hm, decode_of_unselected⟩

/-! ## Encoding what was read -/

/-- Format HDR written back: the word outside the bits that format's mask tests (R55, R56). -/
theorem encodeHdr_fields (op : BitVec 8) (cw : CommandWord) :
    encodeHdr op (field cw 8 3) (field cw 16 17) (field cw 40 8) (field cw 48 8) =
      encodeOp op ||| (cw &&& ~~~0xFF0000FE0000F8FF) := by
  simp only [encodeHdr, shifted_field, BitVec.or_assoc, ← BitVec.and_or_distrib_left]
  rfl

theorem encodeIdWord_field (op : BitVec 8) (cw : CommandWord) :
    encodeIdWord op (field cw 8 29) = encodeOp op ||| (cw &&& ~~~0xFFFFFFE0000000FF) := by
  rw [encodeIdWord, shifted_field]; rfl

/-- A row whose mask tests every bit leaves none free. -/
theorem encodeOp_eq_or_free (op : BitVec 8) (cw : CommandWord) :
    encodeOp op = encodeOp op ||| (cw &&& ~~~0xFFFFFFFFFFFFFFFF) := by
  simp

/-- The encoder writes a row's opcode and, of the word that was read, every bit the row's mask leaves free. -/
theorem encode_read : ∀ row ∈ opcodeRows, ∀ cw, encode (row.read cw) = encodeOp row.opcode ||| (cw &&& ~~~row.mask) := by
  simp only [opcodeRows, List.forall_mem_cons, List.not_mem_nil]
  refine ⟨encodeOp_eq_or_free _, encodeHdr_fields _, encodeIdWord_field _, encodeHdr_fields _, encodeIdWord_field _,
    encodeOp_eq_or_free _, fun cw => ?_, fun cw => ?_, encodeIdWord_field _, encodeOp_eq_or_free _, fun cw => ?_,
    fun cw => ?_, nofun⟩
  all_goals
    simp only [encode, shifted_field, BitVec.or_assoc, ← BitVec.and_or_distrib_left]
    rfl

/-- Settles O2: the match is the word under the mask, and the operands are the word under the rest. -/
theorem encodeOfDecode : Obligations.EncodeOfDecode := by
  intro cw i hd
  obtain ⟨row, hfind, hm, rfl⟩ := decode_cases hd
  obtain ⟨hrow, -⟩ := rowOf?_cases hfind
  obtain ⟨hvalue, -, -⟩ := opcodeRows_match row hrow
  calc encode (row.read cw) = (cw &&& row.mask) ||| (cw &&& ~~~row.mask) := by rw [encode_read row hrow, hm, hvalue]
    _ = cw := by rw [← BitVec.and_or_distrib_left, BitVec.or_not_self, BitVec.and_allOnes]

/-! ## Reading what was encoded -/

/-- The row of a command's mnemonic. -/
def Instr.opcodeRow : Instr → OpcodeRow
  | .nop => opcodeRows[0]
  | .encodeId _ _ _ _ => opcodeRows[1]
  | .decodeId _ => opcodeRows[2]
  | .segment _ _ _ _ => opcodeRows[3]
  | .accept _ => opcodeRows[4]
  | .fpFlush => opcodeRows[5]
  | .buildRequest _ => opcodeRows[6]
  | .buildCommand _ _ _ => opcodeRows[7]
  | .formatLine _ => opcodeRows[8]
  | .parseLine => opcodeRows[9]
  | .cfgRead _ => opcodeRows[10]
  | .cfgWrite _ _ => opcodeRows[11]

theorem opcodeRow_mem (i : Instr) : i.opcodeRow ∈ opcodeRows := by
  cases i <;> exact List.getElem_mem _

theorem encodeHdr_reads (op : BitVec 8) (p : Pri) (g : Pgn) (a d : Addr) :
    field (encodeHdr op p g a d) 8 3 = p ∧ field (encodeHdr op p g a d) 16 17 = g ∧
    field (encodeHdr op p g a d) 40 8 = a ∧ field (encodeHdr op p g a d) 48 8 = d := by
  simp [encodeHdr, field_or, field_encodeOp, field_shifted, field_shifted_disjoint]

theorem encodeIdWord_reads (op : BitVec 8) (id : CanId) : field (encodeIdWord op id) 8 29 = id := by
  simp [encodeIdWord, field_or, field_encodeOp, field_shifted]

theorem read_encode (i : Instr) : i.opcodeRow.read (encode i) = i := by
  cases i with
  | nop | fpFlush | parseLine => rfl
  | encodeId p g a d | segment p g a d =>
    simp [Instr.opcodeRow, opcodeRows, encode, encodeHdr_reads]
  | decodeId id | accept id | formatLine id =>
    simp [Instr.opcodeRow, opcodeRows, encode, encodeIdWord_reads]
  | buildRequest g | buildCommand g d f | cfgRead reg | cfgWrite reg v =>
    simp [Instr.opcodeRow, opcodeRows, encode, field_or, field_encodeOp, field_shifted, field_shifted_disjoint]

/-- The encoder sets no bit its row reserves, since it writes what the row would read back. -/
theorem encode_selects (i : Instr) : encode i &&& i.opcodeRow.mask = i.opcodeRow.value := by
  obtain ⟨hvalue, hmask, -⟩ := opcodeRows_match i.opcodeRow (opcodeRow_mem i)
  have hword := encode_read i.opcodeRow (opcodeRow_mem i) (encode i)
  rw [read_encode, ← hvalue] at hword
  rw [hword, BitVec.and_or_distrib_right, hmask, BitVec.and_assoc, BitVec.not_and_self]
  simp

/-- Settles O1: an encoded word selects its command's row, whose fields read the operands back. -/
theorem decodeOfEncode : Obligations.DecodeOfEncode := by
  intro i
  rw [decode_of_selected (opcodeRow_mem i) (encode_selects i), read_encode]

theorem decode_of_encode_eq {i : Instr} (h : encode i = cw) : decode cw = .ok i := h ▸ decodeOfEncode i

/-- Settles O4: each word is the encoder's. -/
theorem writtenOutWordsDecode : Obligations.WrittenOutWordsDecode :=
  ⟨decode_of_encode_eq rfl, decode_of_encode_eq rfl, decode_of_encode_eq rfl, decode_of_encode_eq rfl,
    decode_of_encode_eq rfl, decode_of_encode_eq rfl, decode_of_encode_eq rfl⟩

end Sys2Proof

namespace Sys2Proof.Machine

variable {s : State} {id : CanId} {a : Addr} {payload : List Byte}

/-! ## Commands that are refused (R58, R59) -/

/-- Settles O6: a word no row selects is not decoded, and the port answers for the command it has taken. -/
theorem unmatchedWordIsIllegal : Obligations.UnmatchedWordIsIllegal := by
  intro s p c rest hn hp hw hrows
  obtain ⟨x, hx⟩ := decode_of_unselected hrows
  have hstep : step s = .next ((s.latch p c rest).respond (Result.raised .illegalOperation)) := by
    simp only [step, hn, hp, stepOn_of_decode_error hw hx]
  refine ⟨_, hstep, by simp, by simp, by simp, ?_, fun q hq => ?_, rfl, by simp [Result.raised, Status.code]⟩
  · rw [respond_waiting, latch_waiting_self]
  · rw [respond_waiting, latch_waiting_of_ne hq]

theorem withEmptyDp_of_not_allowed {body : Outcome} (h : (s.inp.dp.length == 0) = false) :
    withEmptyDp s body = .next (s.respond (Result.raised .illegalOperation)) :=
  withEmptyDp_else (by simpa using h)

theorem withFrameDp_of_not_allowed {body : Outcome} (h : decide (s.inp.dp.length ≤ 8) = false) :
    withFrameDp s body = .next (s.respond (Result.raised .illegalOperation)) :=
  withFrameDp_else (of_decide_eq_false h)

/-- The RX port's check goes first, and what it guards answers alike (R115). -/
theorem onRxPort_of_not_allowed {body : Outcome} {ok : Bool} (h : (s.inp.port == .rx && ok) = false)
    (hbody : ok = false → body = .next (s.respond (Result.raised .illegalOperation))) :
    onRxPort s body = .next (s.respond (Result.raised .illegalOperation)) := by
  by_cases hp : s.inp.port = .rx
  · rw [onRxPort_of hp]; exact hbody (by simpa [hp] using h)
  · exact onRxPort_else hp

/-- Settles O7: each command's own checks of its port and of DP. -/
theorem illFormedCommandIsIllegal : Obligations.IllFormedCommandIsIllegal := by
  intro i s h
  cases i with
  | nop | encodeId | decodeId | buildRequest | buildCommand | cfgRead | cfgWrite => exact withEmptyDp_of_not_allowed h
  | formatLine => exact withFrameDp_of_not_allowed h
  | accept => exact onRxPort_of_not_allowed h withFrameDp_of_not_allowed
  | fpFlush => exact onRxPort_of_not_allowed h withEmptyDp_of_not_allowed
  | segment | parseLine => cases h  -- well formed on either port, with DP of any length

/-! ## SEGMENT's frames (R66 to R69) -/

/-- Settles O31: such a payload is its own one frame. -/
theorem segmentSingleFrame : Obligations.SegmentSingleFrame := by
  intro p g a d id s hid h8
  rw [← segmentFrames_of_le h8]
  exact execSegment_of (by omega) hid

theorem segmentFrames_count (h : 9 ≤ payload.length) :
    (segmentFrames id payload).length = (payload.length + 7) / 7 := by
  rw [segmentFrames_of_gt h, List.length_map, List.length_range]

/-- The stream leaves no frame short, since its filler fills the last one (R67, R69). -/
theorem segmentFrames_full {f : Frame} (h : 9 ≤ payload.length) (hf : f ∈ segmentFrames id payload) :
    f.id = id ∧ f.data.length = 8 := by
  rw [segmentFrames_of_gt h] at hf
  obtain ⟨j, hj, rfl⟩ := List.mem_map.mp hf
  have hj := List.mem_range.mp hj
  refine ⟨rfl, ?_⟩
  simp only [fpFrameData, fpChunk, List.length_cons, List.length_take, List.length_drop, fpStream_length]
  omega

theorem segmentFrames_headers (h9 : 9 ≤ payload.length) (h223 : payload.length ≤ 223) :
    (segmentFrames id payload).map (fun f => f.data.head?) =
      (List.range ((payload.length + 7) / 7)).map fun j => some (BitVec.ofNat 8 (0x40 + j)) := by
  rw [segmentFrames_of_gt h9, List.map_map]
  refine List.map_congr_left fun j hj => ?_
  have hj := List.mem_range.mp hj
  simp [fpFrameData, fpHeader_eq (show j < 32 by omega)]

/-- Behind their header bytes the frames carry the stream (R67). -/
theorem segmentFrames_stream (h : 9 ≤ payload.length) :
    (segmentFrames id payload).flatMap (fun f => f.data.drop 1) = fpStream payload := by
  rw [segmentFrames_of_gt h, List.flatMap_map]
  exact flatMap_chunks fpStream_length

theorem streamPad_le (n : Nat) : streamPad n ≤ 6 := by unfold streamPad; omega

/-- Settles O32: the count, the shape, the headers and the stream of the frames, each by its own lemma. -/
theorem segmentFastPacketFrames : Obligations.SegmentFastPacketFrames := by
  intro p g a d id s hid h9 h223
  have hcount := segmentFrames_count (id := id) h9
  exact ⟨_, execSegment_of h223 hid, hcount, by omega, by omega, fun _ => segmentFrames_full h9,
    hcount ▸ segmentFrames_headers h9 h223, _, streamPad_le _, segmentFrames_stream h9⟩

/-! ## SEND_REQUEST (R62, R74) -/

theorem thenSegment_of {port : Port} {r : Result} {m : PgnMessage} (hs : r.status = Status.code .ok) (hm : r.msg = some m) :
    thenSegment port (.next (s.respond r)) = segmentMessage port m (s.respond r) := by
  simp [thenSegment, hm, hs]

/-- The default GF_PGN's broadcast identifier (R74). -/
theorem encodeCanId_groupFunction : encodeCanId gfPriority 0x1ED00 a broadcast = .ok (0x09EDFF00#29 ||| a.setWidth 29) := by
  rw [encodeCanId_pdu1 (by decide) (by decide)]
  rfl

@[simp] theorem requestPayload_length (cpgn : Pgn) : (requestPayload cpgn).length = 16 := rfl

theorem fpStream_requestPayload (cpgn : Pgn) :
    fpStream (requestPayload cpgn) =
      [0x10, 0x00] ++ pgnBytes cpgn ++ [0xFF, 0xFF] ++ [0xFF, 0xFF, 0xFF, 0xFF, 0x02, 0x01, 0xE4] ++
        [0x07, 0x03, 0x04, 0xFF, 0xFF, 0xFF, 0xFF] := by
  rw [fpStream, requestPayload_length, requestPayload, le24_pgn, identificationPairs_eq]
  simp [streamPad, fpFiller, List.replicate]

/-- The worked example's three frames, whatever PGN is commanded (R74). -/
theorem segmentFrames_requestPayload (cpgn : Pgn) :
    segmentFrames id (requestPayload cpgn) = [
      ⟨id, [0x40, 0x10, 0x00] ++ pgnBytes cpgn ++ [0xFF, 0xFF]⟩,
      ⟨id, [0x41, 0xFF, 0xFF, 0xFF, 0xFF, 0x02, 0x01, 0xE4]⟩,
      ⟨id, [0x42, 0x07, 0x03, 0x04, 0xFF, 0xFF, 0xFF, 0xFF]⟩] := by
  rw [segmentFrames_of_gt (by simp), fpStream_requestPayload, requestPayload_length]
  rfl

/-- SEGMENT of a message that fits (R62, R84). -/
theorem segmentMessage_of {port : Port} {m : PgnMessage} (h : m.payload.length ≤ 223)
    (hid : encodeCanId m.pri m.pgn m.src m.dst = .ok id) :
    segmentMessage port m s =
      .next ((s.withInput port m.payload).respond { Result.ok with frames := segmentFrames id m.payload }) :=
  execSegment_of h hid

/-- SEND_REQUEST is SEGMENT of BUILD_REQUEST's message (R62). -/
theorem sendRequest_of {cpgn : Pgn} (hd : s.inp.dp = []) (ha : s.localAddr = some a)
    (hid : encodeCanId gfPriority s.bind.gfPgn a broadcast = .ok id) :
    sendRequest cpgn s =
      .next (((s.respond { Result.ok with
        msg := some (groupFunctionMessage s.bind a broadcast (requestPayload cpgn)) }).withInput s.inp.port
          (requestPayload cpgn)).respond { Result.ok with frames := segmentFrames id (requestPayload cpgn) }) := by
  rw [sendRequest, exec_buildRequest_of hd ha, thenSegment_of rfl rfl]
  exact segmentMessage_of (by simp [groupFunctionMessage]) hid

/-- Settles O53: SEGMENT cuts BUILD_REQUEST's 16 bytes into the three frames. -/
theorem sendRequestFrames : Obligations.SendRequestFrames := by
  intro cpgn a s hd ha hg
  refine ⟨_, sendRequest_of hd ha (hg ▸ encodeCanId_groupFunction), rfl, ha, ?_⟩
  rw [respond_lastResult, segmentFrames_requestPayload]
  rfl

end Sys2Proof.Machine
end

section
/-! PROOFS, family 40_address_codec.md. What it is for an identifier to carry a header, and that it then fixes the header, and
the header the identifier up to bit 25; Encode and Decode both answer a pair that is so related, which gives the round trips. -/

namespace Sys2Proof.Machine

variable {p : Pri} {g g' : Pgn} {a d : Addr} {id id' : CanId} {h h' : Header} {s t : State}

/-! ## Fields of a value, bit by bit (R57) -/

section Fields

variable {k lo m n w : Nat}

theorem extractLsb'_congr {x y : BitVec w} (h : ∀ j < n, x.getLsbD (lo + j) = y.getLsbD (lo + j)) :
    x.extractLsb' lo n = y.extractLsb' lo n :=
  eq_of_bits fun j hj => by simp [hj, h j hj]

/-- Values with an equal field agree on every bit of it. -/
theorem getLsbD_eq_of_extractLsb'_eq {x y : BitVec w} {j : Nat} (h : x.extractLsb' lo n = y.extractLsb' lo n)
    (hlo : lo ≤ j) (hhi : j < lo + n) : x.getLsbD j = y.getLsbD j := by
  have hbit := congrArg (BitVec.getLsbD · (j - lo)) h
  simpa [show j - lo < n by omega, show lo + (j - lo) = j by omega] using hbit

/-- A field read from where an operand is written is that field of the operand. -/
theorem extractLsb'_placed (x : BitVec m) (hlo : lo ≤ k) (hw : k + n ≤ w) :
    (x.setWidth w <<< lo).extractLsb' k n = x.extractLsb' (k - lo) n :=
  eq_of_bits fun j hj => by
    simp [hj, show k + j < w by omega, show ¬ k + j < lo by omega, show k + j - lo = k - lo + j by omega]

theorem extractLsb'_placed_above (x : BitVec m) (h : k + n ≤ lo) : (x.setWidth w <<< lo).extractLsb' k n = 0 :=
  eq_of_bits fun j hj => by simp [show k + j < lo by omega]

theorem extractLsb'_eq_zero_of_le (x : BitVec m) (h : m ≤ k) : x.extractLsb' k n = 0 :=
  eq_of_bits fun j _ => by simp [BitVec.getLsbD_of_ge x (k + j) (by omega)]

end Fields

/-! ## A PGN by its parts (R63) -/

theorem pgn_eq_of_parts (hdp : g.getLsbD 16 = g'.getLsbD 16) (hpf : g.extractLsb' 8 8 = g'.extractLsb' 8 8)
    (hlow : g.extractLsb' 0 8 = g'.extractLsb' 0 8) : g = g' :=
  eq_of_bits fun j hj => by
    by_cases h8 : j < 8
    · exact getLsbD_eq_of_extractLsb'_eq hlow (by omega) (by omega)
    · by_cases h16 : j < 16
      · exact getLsbD_eq_of_extractLsb'_eq hpf (by omega) (by omega)
      · rwa [show j = 16 by omega]

theorem pgnOf_parts (dp : BitVec 1) (pf low : Byte) :
    (pgnOf dp pf low).getLsbD 16 = dp.getLsbD 0 ∧ (pgnOf dp pf low).extractLsb' 8 8 = pf ∧
    (pgnOf dp pf low).extractLsb' 0 8 = low := by
  simp [pgnOf, BitVec.extractLsb'_or, extractLsb'_placed, extractLsb'_placed_above,
    BitVec.extractLsb'_setWidth_of_le, extractLsb'_eq_zero_of_le]

/-! ## The headers of R80 and R81 -/

theorem encodable_pdu1 (hpdu1 : (g.extractLsb' 8 8).toNat < 240) (hlow : g.extractLsb' 0 8 = 0) :
    Header.Encodable ⟨p, g, a, d⟩ := by
  rwa [Header.Encodable, if_pos hpdu1]

theorem encodable_pdu2 (hpdu2 : ¬ (g.extractLsb' 8 8).toNat < 240) : Header.Encodable ⟨p, g, a, 0xFF⟩ := by
  rw [Header.Encodable, if_neg hpdu2]

theorem Header.Encodable.low (he : h.Encodable) (hpdu1 : (h.pgn.extractLsb' 8 8).toNat < 240) :
    h.pgn.extractLsb' 0 8 = 0 := by
  rwa [Header.Encodable, if_pos hpdu1] at he

theorem Header.Encodable.dst (he : h.Encodable) (hpdu2 : ¬ (h.pgn.extractLsb' 8 8).toNat < 240) : h.dst = 0xFF := by
  rwa [Header.Encodable, if_neg hpdu2] at he

/-! ## Carrying a header (R63, R64) -/

/-- An identifier carries a header when each part stands in the bits R63 gives it: of a PDU1 PGN the destination in bits
15 to 8, of a PDU2 PGN its low byte (R64). Bit 25 has no part in it. -/
structure Carries (id : CanId) (h : Header) : Prop where
  pri : id.extractLsb' 26 3 = h.pri
  dataPage : id.getLsbD 24 = h.pgn.getLsbD 16
  format : id.extractLsb' 16 8 = h.pgn.extractLsb' 8 8
  specific : id.extractLsb' 8 8 = if (h.pgn.extractLsb' 8 8).toNat < 240 then h.dst else h.pgn.extractLsb' 0 8
  src : id.extractLsb' 0 8 = h.src

/-- Of the headers of R80 and R81 an identifier carries one at most. -/
theorem Carries.header_unique (hc : Carries id h) (hc' : Carries id h') (he : h.Encodable) (he' : h'.Encodable) :
    h = h' := by
  obtain ⟨p, g, a, d⟩ := h
  obtain ⟨p', g', a', d'⟩ := h'
  obtain ⟨rfl, hdp, hpf, hps, rfl⟩ := hc
  obtain ⟨rfl, hdp', hpf', hps', rfl⟩ := hc'
  have hformat := hpf.symm.trans hpf'
  have hpage := hdp.symm.trans hdp'
  have hspecific := hps.symm.trans hps'
  simp only [Header.Encodable, ← hformat] at he he' hspecific
  split_ifs at he he' hspecific
  · obtain rfl := pgn_eq_of_parts hpage hformat (he.trans he'.symm)
    rw [hspecific]
  · obtain rfl := pgn_eq_of_parts hpage hformat hspecific
    rw [he, he']

/-- One identifier at most carries a header with bit 25 clear. -/
theorem Carries.id_unique (hc : Carries id h) (hc' : Carries id' h) (h25 : id.getLsbD 25 = false)
    (h25' : id'.getLsbD 25 = false) : id = id' := by
  have hpri := hc.pri.trans hc'.pri.symm
  have hpf := hc.format.trans hc'.format.symm
  have hps := hc.specific.trans hc'.specific.symm
  have hsrc := hc.src.trans hc'.src.symm
  refine eq_of_bits fun j hj => ?_
  rcases (by omega : j < 8 ∨ 8 ≤ j ∧ j < 16 ∨ 16 ≤ j ∧ j < 24 ∨ j = 24 ∨ j = 25 ∨ 26 ≤ j) with
    h0 | ⟨h8, h8'⟩ | ⟨h16, h16'⟩ | rfl | rfl | h26
  · exact getLsbD_eq_of_extractLsb'_eq hsrc (Nat.zero_le j) h0
  · exact getLsbD_eq_of_extractLsb'_eq hps h8 h8'
  · exact getLsbD_eq_of_extractLsb'_eq hpf h16 h16'
  · exact hc.dataPage.trans hc'.dataPage.symm
  · exact h25.trans h25'.symm
  · exact getLsbD_eq_of_extractLsb'_eq hpri h26 hj

theorem Carries.of_eq_off_bit25 (hc : Carries id h) (heq : ∀ j ≠ 25, id'.getLsbD j = id.getLsbD j) :
    Carries id' h where
  pri := (extractLsb'_congr fun j _ => heq _ (by omega)).trans hc.pri
  dataPage := (heq 24 (by omega)).trans hc.dataPage
  format := (extractLsb'_congr fun j _ => heq _ (by omega)).trans hc.format
  specific := (extractLsb'_congr fun j _ => heq _ (by omega)).trans hc.specific
  src := (extractLsb'_congr fun j _ => heq _ (by omega)).trans hc.src

/-- The destination of a PDU2 PGN is not carried (R64). -/
theorem Carries.of_pdu2 (hc : Carries id ⟨p, g, a, d⟩) (hpdu2 : ¬ (g.extractLsb' 8 8).toNat < 240) (d' : Addr) :
    Carries id ⟨p, g, a, d'⟩ := by
  obtain ⟨hpri, hdp, hpf, hps, hsrc⟩ := hc
  exact ⟨hpri, hdp, hpf, by rwa [if_neg hpdu2] at hps ⊢, hsrc⟩

/-! ## Encode (R77) -/

/-- The identifier whose bits 15 to 8 hold the PGN's low byte and `x`, one of which Encode makes 0. -/
def idWord (p : Pri) (g : Pgn) (a : Addr) (x : Byte) : CanId :=
  p.setWidth 29 <<< 26 ||| g.setWidth 29 <<< 8 ||| x.setWidth 29 <<< 8 ||| a.setWidth 29

theorem encodeCanId_ok_cases (hid : encodeCanId p g a d = .ok id) :
    (g.extractLsb' 8 8).toNat < 240 ∧ g.extractLsb' 0 8 = 0 ∧ id = idWord p g a d ∨
    ¬ (g.extractLsb' 8 8).toNat < 240 ∧ id = idWord p g a 0 := by
  by_cases hpdu1 : (g.extractLsb' 8 8).toNat < 240
  · by_cases hlow : g.extractLsb' 0 8 = 0
    · rw [encodeCanId_pdu1 hpdu1 hlow] at hid
      cases hid
      exact .inl ⟨hpdu1, hlow, rfl⟩
    · rw [encodeCanId_pdu1_bad hpdu1 hlow] at hid
      cases hid
  · rw [encodeCanId_pdu2 hpdu1] at hid
    cases hid
    exact .inr ⟨hpdu1, by simp [idWord]⟩

theorem idWord_bit25 (x : Byte) : (idWord p g a x).getLsbD 25 = false := by simp [idWord]

theorem idWord_fields (x : Byte) :
    (idWord p g a x).extractLsb' 26 3 = p ∧ (idWord p g a x).extractLsb' 16 8 = g.extractLsb' 8 8 ∧
    (idWord p g a x).extractLsb' 8 8 = g.extractLsb' 0 8 ||| x ∧ (idWord p g a x).extractLsb' 0 8 = a := by
  simp [idWord, BitVec.extractLsb'_or, extractLsb'_placed, extractLsb'_placed_above,
    BitVec.extractLsb'_setWidth_of_le, extractLsb'_eq_zero_of_le]

theorem idWord_carries {x : Byte}
    (hx : g.extractLsb' 0 8 ||| x = if (g.extractLsb' 8 8).toNat < 240 then d else g.extractLsb' 0 8) :
    Carries (idWord p g a x) ⟨p, g, a, d⟩ := by
  obtain ⟨hpri, hformat, hspecific, hsrc⟩ := idWord_fields (p := p) (g := g) (a := a) x
  exact ⟨hpri, by simp [idWord], hformat, hspecific.trans hx, hsrc⟩

theorem encodeCanId_bit25 (hid : encodeCanId p g a d = .ok id) : id.getLsbD 25 = false := by
  rcases encodeCanId_ok_cases hid with ⟨-, -, rfl⟩ | ⟨-, rfl⟩
  · exact idWord_bit25 d
  · exact idWord_bit25 0

theorem encodeCanId_carries (hid : encodeCanId p g a d = .ok id) : Carries id ⟨p, g, a, d⟩ := by
  rcases encodeCanId_ok_cases hid with ⟨hpdu1, hlow, rfl⟩ | ⟨hpdu2, rfl⟩
  · exact idWord_carries (by rw [if_pos hpdu1, hlow]; exact BitVec.zero_or)
  · exact idWord_carries (by rw [if_neg hpdu2]; exact BitVec.or_zero)

/-- Encode succeeds unless a PDU1 PGN has a low byte (R77). -/
theorem encodeCanId_succeeds (hlow : (g.extractLsb' 8 8).toNat < 240 → g.extractLsb' 0 8 = 0) :
    ∃ id, encodeCanId p g a d = .ok id := by
  rcases encodeCanId_cases with ⟨hpdu1, hne, -⟩ | hok
  · exact absurd (hlow hpdu1) hne
  · exact hok

/-! ## Decode (R78) -/

theorem decodeCanId_encodable (id : CanId) : (decodeCanId id).Encodable := by
  by_cases hpdu1 : (id.extractLsb' 16 8).toNat < 240
  · obtain ⟨-, hformat, hlow⟩ := pgnOf_parts (id.extractLsb' 24 1) (id.extractLsb' 16 8) 0
    rw [decodeCanId_pdu1 hpdu1]
    exact encodable_pdu1 (by rwa [hformat]) hlow
  · obtain ⟨-, hformat, -⟩ := pgnOf_parts (id.extractLsb' 24 1) (id.extractLsb' 16 8) (id.extractLsb' 8 8)
    rw [decodeCanId_pdu2 hpdu1]
    exact encodable_pdu2 (by rwa [hformat])

theorem decodeCanId_carries (id : CanId) : Carries id (decodeCanId id) := by
  by_cases hpdu1 : (id.extractLsb' 16 8).toNat < 240
  · obtain ⟨hpage, hformat, -⟩ := pgnOf_parts (id.extractLsb' 24 1) (id.extractLsb' 16 8) 0
    rw [decodeCanId_pdu1 hpdu1]
    exact ⟨rfl, by rw [hpage]; simp, hformat.symm, by rw [hformat, if_pos hpdu1], rfl⟩
  · obtain ⟨hpage, hformat, hlow⟩ := pgnOf_parts (id.extractLsb' 24 1) (id.extractLsb' 16 8) (id.extractLsb' 8 8)
    rw [decodeCanId_pdu2 hpdu1]
    exact ⟨rfl, by rw [hpage]; simp, hformat.symm, by rw [hformat, if_neg hpdu1, hlow], rfl⟩

/-- Decode gives the header of R80 or R81 that the identifier carries. -/
theorem decodeCanId_eq (hc : Carries id h) (he : h.Encodable) : decodeCanId id = h :=
  (decodeCanId_carries id).header_unique hc (decodeCanId_encodable id) he

/-- Encode of a header of R80 or R81 gives the identifier that carries it with bit 25 clear. -/
theorem encodeCanId_eq (hc : Carries id h) (he : h.Encodable) (h25 : id.getLsbD 25 = false) :
    encodeCanId h.pri h.pgn h.src h.dst = .ok id := by
  obtain ⟨id', hid⟩ := encodeCanId_succeeds (p := h.pri) (a := h.src) (d := h.dst) he.low
  rw [hid, (encodeCanId_carries hid).id_unique hc (encodeCanId_bit25 hid) h25]

/-! ## Bit 25 (R83) -/

theorem bit25Mask_bit {j : Nat} (hj : j ≠ 25) : (1#29 <<< 25).getLsbD j = false :=
  (BitVec.getLsbD_twoPow 25 j).trans (by simp [hj.symm])

theorem clearBit25_carries (hc : Carries id h) : Carries (id &&& ~~~(1#29 <<< 25)) h :=
  hc.of_eq_off_bit25 fun j hj => by
    rw [BitVec.getLsbD_and, BitVec.getLsbD_not, bit25Mask_bit hj]
    by_cases hlt : j < 29
    · simp [hlt]
    · simp [BitVec.getLsbD_of_ge id j (by omega)]

theorem flipBit25_carries (hc : Carries id h) : Carries (id ^^^ (1#29 <<< 25)) h :=
  hc.of_eq_off_bit25 fun j hj => by rw [BitVec.getLsbD_xor, bit25Mask_bit hj, Bool.xor_false]

theorem flipBit25_ne (id : CanId) : id ≠ id ^^^ (1#29 <<< 25) := fun heq => by
  have hbit := congrArg (BitVec.getLsbD · 25) heq
  simp at hbit

/-- ACCEPT touches its own key of T alone (R83). -/
theorem execAccept_get_of_ne {k : CanId} (hx : execAccept id s = .next t) (hne : k ≠ id) :
    t.table.get k = s.table.get k := by
  rcases execAccept_ends hx with rfl | ⟨tbl, r, rfl, -, rfl | rfl | ⟨e, rfl⟩⟩
  · rfl
  · rfl
  · exact get_erase_of_ne hne
  · exact get_set_of_ne hne

/-! ## The two commands -/

theorem exec_encodeId_of (hd : s.inp.dp = []) (hid : encodeCanId p g a d = .ok id) :
    exec (.encodeId p g a d) s = .next (s.respond { Result.ok with id := some id }) := by
  simp [exec, execEncodeId, withEmptyDp_of hd, hid]

theorem exec_encodeId_of_error {st : Status} (hd : s.inp.dp = []) (hst : encodeCanId p g a d = .error st) :
    exec (.encodeId p g a d) s = .next (s.respond (Result.raised st)) := by
  simp [exec, execEncodeId, withEmptyDp_of hd, hst]

theorem exec_decodeId_of (hd : s.inp.dp = []) :
    exec (.decodeId id) s = .next (s.respond { Result.ok with hdr := some (decodeCanId id) }) := by
  simp [exec, execDecodeId, withEmptyDp_of hd]

/-- Settles O24: Encode raises in the first case, and in the other answers an identifier that carries the operands. -/
theorem encodeIdBuildsFields : Obligations.EncodeIdBuildsFields := by
  intro p g a d s hd
  split
  · next hbad =>
    obtain ⟨hpdu1, hlow⟩ := hbad
    exact exec_encodeId_of_error hd (encodeCanId_pdu1_bad hpdu1 hlow)
  · next hgood =>
    obtain ⟨id, hid⟩ : ∃ id, encodeCanId p g a d = .ok id :=
      encodeCanId_succeeds fun hpdu1 => by_contra fun hlow => hgood ⟨hpdu1, hlow⟩
    have hc := encodeCanId_carries hid
    exact ⟨id, exec_encodeId_of hd hid, hc.pri, encodeCanId_bit25 hid, hc.dataPage, hc.format, hc.specific, hc.src⟩

/-- Settles O25: Decode's header is carried by the identifier, and is one of R80's and R81's. -/
theorem decodeIdSplitsFields : Obligations.DecodeIdSplitsFields := by
  intro id s hd
  have hc := decodeCanId_carries id
  have he := decodeCanId_encodable id
  refine ⟨decodeCanId id, exec_decodeId_of hd, hc.pri.symm, hc.src.symm, hc.dataPage.symm, hc.format.symm, ?_⟩
  have hps := hc.specific
  rw [hc.format]
  split_ifs at hps ⊢ with hpdu1
  · exact ⟨hps.symm, he.low hpdu1⟩
  · exact ⟨he.dst hpdu1, hps.symm⟩

/-! ## The round trips (R80 to R83) -/

/-- Settles O26: what Encode answers carries the header, so Decode gives it back. -/
theorem pdu1RoundTrip : Obligations.Pdu1RoundTrip := by
  intro p g a d hpdu1 hlow
  obtain ⟨id, hid⟩ : ∃ id, encodeCanId p g a d = .ok id := encodeCanId_succeeds fun _ => hlow
  exact ⟨id, hid, decodeCanId_eq (encodeCanId_carries hid) (encodable_pdu1 hpdu1 hlow)⟩

/-- Settles O27: what Encode answers carries the header with any destination, 0xFF among them. -/
theorem pdu2RoundTrip : Obligations.Pdu2RoundTrip := by
  intro p g a d h240
  have hpdu2 := h240.not_gt
  obtain ⟨id, hid⟩ : ∃ id, encodeCanId p g a d = .ok id := encodeCanId_succeeds fun hpdu1 => absurd hpdu1 hpdu2
  exact ⟨id, hid, decodeCanId_eq ((encodeCanId_carries hid).of_pdu2 hpdu2 0xFF) (encodable_pdu2 hpdu2)⟩

/-- Settles O28: the identifier with bit 25 cleared carries what Decode reads, and Encode finds the one that does. -/
theorem reverseRoundTrip : Obligations.ReverseRoundTrip := by
  refine ⟨fun id => ?_, fun id h25 => ?_, fun h he => ?_⟩
  · exact encodeCanId_eq (clearBit25_carries (decodeCanId_carries id)) (decodeCanId_encodable id) (by simp)
  · have he := decodeCanId_encodable id
    exact ⟨he, encodeCanId_eq (decodeCanId_carries id) he h25⟩
  · obtain ⟨id, hid⟩ := encodeCanId_succeeds (p := h.pri) (a := h.src) (d := h.dst) he.low
    exact ⟨id, hid, encodeCanId_bit25 hid, decodeCanId_eq (encodeCanId_carries hid) he⟩

/-- Settles O29: the identifier with bit 25 flipped carries the same header, and ACCEPT touches its own key alone. -/
theorem bit25IsIgnoredButKeyed : Obligations.Bit25IsIgnoredButKeyed := by
  refine ⟨fun p g a d id => encodeCanId_bit25, fun id => ?_, fun id s t hx => ?_⟩
  · exact decodeCanId_eq (flipBit25_carries (decodeCanId_carries id)) (decodeCanId_encodable id)
  · exact execAccept_get_of_ne hx (flipBit25_ne id)

end Sys2Proof.Machine
end

section
/-! PROOFS, family 41_fast_packet.md. What ACCEPT answers on each of its paths, one equation a path; what a reassembly
holds after each frame that SEGMENT emits; and the statements about SEGMENT, ACCEPT and FP_FLUSH that follow from them. -/

namespace Sys2Proof.Machine

variable {s t : State} {id : CanId} {e : Entry} {p : Pri} {g : Pgn} {a d : Addr} {h : Byte} {data payload : List Byte}

/-! ## What SEGMENT raises (R84) -/

theorem execSegment_tooLong (hlong : 223 < s.inp.dp.length) :
    execSegment p g a d s = .next (s.respond (Result.raised .payloadTooLong)) :=
  if_pos hlong

theorem execSegment_of_error {st : Status} (h223 : s.inp.dp.length ≤ 223) (hst : encodeCanId p g a d = .error st) :
    execSegment p g a d s = .next (s.respond (Result.raised st)) := by
  rw [execSegment, if_neg h223.not_gt, hst]
  rfl

/-- Settles O30: the length decides before Encode is asked. -/
theorem segmentRaises : Obligations.SegmentRaises := by
  intro p g a d s
  exact ⟨execSegment_tooLong, fun h223 hpdu1 hlow => execSegment_of_error h223 (encodeCanId_pdu1_bad hpdu1 hlow)⟩

/-! ## FP_FLUSH (R95) -/

theorem exec_fpFlush_of (hp : s.inp.port = .rx) (hd : s.inp.dp = []) :
    exec .fpFlush s = .next ((s.setTable []).respond Result.ok) :=
  (onRxPort_of hp).trans (withEmptyDp_of hd)

/-- Settles O45: the table written is the empty one. -/
theorem flushEmptiesTable : Obligations.FlushEmptiesTable := by
  intro s hp hd
  exact ⟨_, exec_fpFlush_of hp hd, rfl, fun _ => get_nil, rfl⟩

/-! ## Which path ACCEPT takes (R86 to R88) -/

theorem exec_accept_idle (hp : s.inp.port = .rx) (h8 : s.inp.dp.length ≤ 8) (hget : s.table.get id = none) :
    exec (.accept id) s = acceptIdle id s :=
  (execAccept_of hp h8).trans (by simp only [hget])

theorem exec_accept_busy (hp : s.inp.port = .rx) (h8 : s.inp.dp.length ≤ 8) (hget : s.table.get id = some e) :
    exec (.accept id) s = acceptBusy id e s :=
  (execAccept_of hp h8).trans (by simp only [hget])

/-- Settles O33: neither a Fast Packet PGN nor an entry takes the frame off the single-frame path. -/
theorem acceptSingleFrame : Obligations.AcceptSingleFrame := by
  intro id s hp h8 hget hfast
  rw [exec_accept_idle hp h8 hget, acceptIdle, if_neg (by simp [hfast])]
  rfl

/-- Settles O34: both ways onto the Fast Packet path test the length first. -/
theorem acceptShortFrame : Obligations.AcceptShortFrame := by
  intro id s hp h8 hfast
  cases hget : s.table.get id with
  | none =>
    have hpgn := hfast.resolve_right (absurd hget)
    rw [exec_accept_idle hp h8.le hget, acceptIdle, if_pos hpgn, if_pos h8, erase_of_get_none hget, setTable_self]
    rfl
  | some e =>
    rw [exec_accept_busy hp h8.le hget, acceptBusy, if_pos h8]
    rfl

/-- Settles O38: with no entry, a counter other than 0 leaves nothing to continue. -/
theorem acceptDiscardsOrphan : Obligations.AcceptDiscardsOrphan := by
  intro id h data s hp hdp h7 hget hfast hc
  have h8 : s.inp.dp.length = 8 := by simp [hdp, h7]
  have hcount : counterOf s.inp.dp ≠ 0 := by rwa [hdp, counterOf_cons]
  rw [exec_accept_idle hp h8.le hget, acceptIdle, if_pos hfast, if_neg h8.not_lt, if_neg hcount]
  rfl

/-! ## Frame 0 (R89) -/

/-- On the Fast Packet path a frame 0 goes to R89, whether or not an entry exists. -/
theorem exec_accept_frameZero (hp : s.inp.port = .rx) (h8 : s.inp.dp.length = 8) (hc : counterOf s.inp.dp = 0)
    (hfast : isFastPacket s.bind.model (decodeCanId id).pgn = true ∨ s.table.get id ≠ none) :
    exec (.accept id) s = acceptFirst id s := by
  cases hget : s.table.get id with
  | none =>
    have hpgn := hfast.resolve_right (absurd hget)
    rw [exec_accept_idle hp h8.le hget, acceptIdle, if_pos hpgn, if_neg h8.not_lt, if_pos hc]
  | some e => rw [exec_accept_busy hp h8.le hget, acceptBusy, if_neg h8.not_lt, if_pos hc]

/-- Writing an identifier's entry drops the old one by itself. -/
theorem set_erase_self {tbl : Memory} : (tbl.erase id).set id e = tbl.set id e := by
  rw [Memory.set, erase_of_get_none get_erase_self, Memory.set]

theorem acceptFirst_badLength (hbig : 223 < declaredLength s.inp.dp) :
    acceptFirst id s =
      .next ((s.setTable (s.table.erase id)).respond (Result.verdictOnly (.discarded .badLength))) :=
  if_pos hbig

theorem acceptFirst_completes (hsmall : declaredLength s.inp.dp ≤ 6) :
    acceptFirst id s = .next ((s.setTable (s.table.erase id)).respond
      (Result.completed (messageOf id ((s.inp.dp.drop 2).take (declaredLength s.inp.dp))))) :=
  (if_neg (by simp only [fpMaxLen]; omega)).trans (if_pos hsmall)

theorem acceptFirst_starts (hlo : 6 < declaredLength s.inp.dp) (hhi : declaredLength s.inp.dp ≤ 223)
    (hroom : (s.table.erase id).hasSlot s.bind.numFpSlots = true) :
    acceptFirst id s =
      .next ((s.setTable (s.table.set id (startEntry s.inp.dp))).respond (Result.verdictOnly .inProgress)) := by
  rw [← set_erase_self]
  exact (if_neg hhi.not_gt).trans ((if_neg hlo.not_ge).trans (if_pos hroom))

theorem acceptFirst_noSlot (hlo : 6 < declaredLength s.inp.dp) (hhi : declaredLength s.inp.dp ≤ 223)
    (hroom : ¬ (s.table.erase id).hasSlot s.bind.numFpSlots = true) :
    acceptFirst id s =
      .next ((s.setTable (s.table.erase id)).respond (Result.verdictOnly (.discarded .noSlot))) :=
  (if_neg hhi.not_gt).trans ((if_neg hlo.not_ge).trans (if_neg hroom))

/-- Settles O35: the four endings of a frame 0, in the order in which they are tested. -/
theorem acceptFrameZero : Obligations.AcceptFrameZero := by
  intro id h len b2 b3 b4 b5 b6 b7 s hp hdp hc hfast
  have h8 : s.inp.dp.length = 8 := by simp [hdp]
  have hcount : counterOf s.inp.dp = 0 := by rwa [hdp, counterOf_cons]
  have hlen : declaredLength s.inp.dp = len.toNat := by rw [hdp]; rfl
  have hpayload : s.inp.dp.drop 2 = [b2, b3, b4, b5, b6, b7] := by rw [hdp]; rfl
  have hstart : startEntry s.inp.dp = ⟨len.toNat, 6, 0, [b2, b3, b4, b5, b6, b7]⟩ := by rw [hdp]; rfl
  rw [exec_accept_frameZero hp h8 hcount hfast, ← hlen, ← hpayload]
  split_ifs with hbig hsmall hroom
  · exact acceptFirst_badLength hbig
  · exact acceptFirst_completes hsmall
  · rw [acceptFirst_starts (by omega) (by omega) (hasSlot_iff.mpr hroom), hstart, hlen, hpayload]
    rfl
  · exact acceptFirst_noSlot (by omega) (by omega) (mt hasSlot_iff.mp hroom)

/-! ## Continuation frames (R90, R91) -/

/-- The next frame of an entry as R27 says brings seven bytes, for which there is room; the declared length decides. -/
theorem exec_accept_next (hp : s.inp.port = .rx) (hdp : s.inp.dp = h :: data) (h7 : data.length = 7)
    (hget : s.table.get id = some e) (he : e.Ok) (hc : h.toNat % 32 = e.last + 1) :
    exec (.accept id) s =
      if e.total ≤ e.acc + 7 then
        .next ((s.setTable (s.table.erase id)).respond
          (Result.completed (messageOf id ((e.buf ++ data).take e.total))))
      else
        .next ((s.setTable (s.table.set id (e.append data (e.last + 1)))).respond (Result.verdictOnly .inProgress)) := by
  have hseven : (s.inp.dp.drop 1).take fpChunk = data := by
    rw [hdp, List.drop_one, List.tail_cons, List.take_of_length_le h7.le]
  have hroom : e.canWrite e.acc data.length = true := h7 ▸ canWrite_of_ok he
  rw [exec_accept_continuation hp hdp h7 (by omega) hget, hc, acceptNext, if_pos rfl, hseven, if_pos hroom]
  simp only [append_acc, h7]
  rfl

theorem exec_accept_appends (hp : s.inp.port = .rx) (hdp : s.inp.dp = h :: data) (h7 : data.length = 7)
    (hget : s.table.get id = some e) (he : e.Ok) (hc : h.toNat % 32 = e.last + 1) (hlt : e.acc + 7 < e.total) :
    exec (.accept id) s =
      .next ((s.setTable (s.table.set id (e.append data (e.last + 1)))).respond (Result.verdictOnly .inProgress)) :=
  (exec_accept_next hp hdp h7 hget he hc).trans (if_neg hlt.not_ge)

/-- Settles O37: the same frame, once the declared length is reached. -/
theorem acceptCompletesMessage : Obligations.AcceptCompletesMessage := by
  intro id e h data s hp hdp h7 hget he hc hle
  exact (exec_accept_next hp hdp h7 hget he hc).trans (if_pos hle)

/-- Settles O39: such a counter is not the entry's next. -/
theorem acceptDiscardsOutOfSequence : Obligations.AcceptDiscardsOutOfSequence := by
  intro id e h data s hp hdp h7 hget hc hne
  rw [exec_accept_continuation hp hdp h7 hc hget]
  exact acceptNext_of_ne hne

theorem readByte_of_get {tbl : Memory} (hget : tbl.get id = some e) (off : Nat) :
    tbl.readByte id off = e.buf[off]? := by
  simp [Memory.readByte, hget]

/-- The appended bytes stand from the old end of the buffer on (R36). -/
theorem readByte_set_append_new {tbl : Memory} {c : Nat} (hbuf : e.buf.length = e.acc) (j : Nat) :
    (tbl.set id (e.append data c)).readByte id (e.acc + j) = data[j]? := by
  rw [readByte_of_get get_set_self, append_buf, ← hbuf, List.getElem?_append_right (Nat.le_add_right ..),
    Nat.add_sub_cancel_left]

/-- Every other byte of the space reads as before (R36). -/
theorem readByte_set_append_old {tbl : Memory} {k : CanId} {c off : Nat} (hget : tbl.get id = some e)
    (hbuf : e.buf.length = e.acc) (hoff : ¬ (k = id ∧ e.acc ≤ off ∧ off < e.acc + data.length)) :
    (tbl.set id (e.append data c)).readByte k off = tbl.readByte k off := by
  by_cases hk : k = id
  · subst hk
    rw [readByte_of_get get_set_self, readByte_of_get hget, append_buf]
    by_cases hlo : off < e.acc
    · exact List.getElem?_append_left (hbuf ▸ hlo)
    · have hhi : e.acc + data.length ≤ off := by
        by_contra hlt
        exact hoff ⟨rfl, by omega, by omega⟩
      rw [List.getElem?_eq_none (by rw [List.length_append]; omega), List.getElem?_eq_none (by omega)]
  · exact readByte_eq_of_get_eq (get_set_of_ne hk) off

/-- Settles O36: the entry appended to, and the bytes it reads. -/
theorem acceptAppendsContinuation : Obligations.AcceptAppendsContinuation := by
  intro id e h data s hp hdp h7 hget he hc hlt
  have ⟨hbuf, _, _, _⟩ := he
  refine ⟨_, exec_accept_appends hp hdp h7 hget he hc hlt, rfl, ?_, fun k off hoff => ?_, fun j _ => ?_⟩
  · rw [respond_table, setTable_table, get_set_self, Entry.append, h7]
  · exact readByte_set_append_old hget hbuf (by rwa [h7])
  · exact readByte_set_append_new hbuf j

/-! ## Every ACCEPT (R92, R93) -/

theorem exec_accept_ends (hp : s.inp.port = .rx) (h8 : s.inp.dp.length ≤ 8) (hx : exec (.accept id) s = .next t) :
    AcceptEnds id s t := by
  cases hget : s.table.get id with
  | none => rw [exec_accept_idle hp h8 hget] at hx; exact acceptIdle_ends hx
  | some e => rw [exec_accept_busy hp h8 hget] at hx; exact acceptBusy_ends hx

/-- A frame that could only continue a message completes none where none is in progress (R93). -/
theorem exec_accept_orphan (hp : s.inp.port = .rx) (h8 : s.inp.dp.length ≤ 8) (hx : exec (.accept id) s = .next t)
    (hget : s.table.get id = none) (hfast : isFastPacket s.bind.model (decodeCanId id).pgn = true)
    (hc : counterOf s.inp.dp ≠ 0) : ∃ v, v ≠ .completed ∧ t = s.respond (Result.verdictOnly v) := by
  rw [exec_accept_idle hp h8 hget] at hx
  rcases acceptIdle_cases hx with ⟨-, hzero, -, -⟩ | ⟨v, hv, -, ht⟩ | ⟨hslow, -⟩
  · exact absurd hzero hc
  · exact ⟨v, hv, ht⟩
  · simp [hfast] at hslow

/-- Settles O40: every ending of ACCEPT carries a verdict, and an orphan's is not Completed. -/
theorem acceptNeverFails : Obligations.AcceptNeverFails := by
  intro id s hs hp h8
  obtain ⟨t, hx⟩ : ∃ t, exec (.accept id) s = .next t := exec_next hs
  have htable := exec_tableOk hs hx
  obtain ⟨tbl, r, rfl, hr, -⟩ := exec_accept_ends hp h8 hx
  have hanswers : ((s.setTable tbl).respond r).answers = s.answers ++ [⟨.rx, r⟩] := by
    rw [respond_answers, setTable_inp, setTable_answers, hp]
  rcases hr with ⟨v, rfl, hv⟩ | ⟨m, rfl⟩
  · exact ⟨_, _, v, hx, hanswers, rfl, rfl, by simp [hv], fun _ _ _ _ _ _ => hv, htable⟩
  · refine ⟨_, _, .completed, hx, hanswers, rfl, rfl, by simp, fun h data hdp hc hget hfast => ?_, htable⟩
    obtain ⟨v, hv, ht⟩ := exec_accept_orphan hp h8 hx hget hfast (by rwa [hdp, counterOf_cons])
    have hlast := congrArg State.lastResult ht
    rw [respond_lastResult, respond_lastResult] at hlast
    cases hlast

/-- Settles O41: no key of T but the frame's own is touched, and an identifier's bytes are its entry's. -/
theorem acceptLeavesOtherIdentifiers : Obligations.AcceptLeavesOtherIdentifiers := by
  intro id k s t hx hne
  have hget : t.table.get k = s.table.get k := execAccept_get_of_ne hx hne
  obtain ⟨-, -, -, -, -, -, -, -, haddr⟩ := commandFrame _ s t hx
  exact ⟨hget, readByte_eq_of_get_eq hget, haddr nofun⟩

/-! ## Running ACCEPT over frames -/

theorem acceptAll_append {fs gs : List Frame} (hfs : acceptAll fs s = .next t) :
    acceptAll (fs ++ gs) s = acceptAll gs t := by
  induction fs generalizing s with
  | nil => cases hfs; rfl
  | cons f fs ih =>
    cases hx : execAccept f.id (s.withInput .rx f.data) with
    | next u =>
      rw [acceptAll_cons hx] at hfs
      rw [List.cons_append, acceptAll_cons hx, ih hfs]
    | fault x => simp [acceptAll, exec, hx] at hfs
    | refused x => simp [acceptAll, exec, hx] at hfs

theorem acceptAll_singleton {f : Frame} (hx : exec (.accept f.id) (s.withInput .rx f.data) = .next t) :
    acceptAll [f] s = .next t :=
  acceptAll_cons hx

/-- The header ACCEPT reads in an identifier that Encode gave: the one encoded, but for the destination of a PDU2 PGN,
which no identifier carries (R80, R81). -/
theorem decodeCanId_of_encodeCanId (hid : encodeCanId p g a d = .ok id) :
    decodeCanId id = ⟨p, g, a, if (g.extractLsb' 8 8).toNat < 240 then d else 0xFF⟩ := by
  have hc := encodeCanId_carries hid
  rcases encodeCanId_ok_cases hid with ⟨hpdu1, hlow, -⟩ | ⟨hpdu2, -⟩
  · rw [if_pos hpdu1]; exact decodeCanId_eq hc (encodable_pdu1 hpdu1 hlow)
  · rw [if_neg hpdu2]; exact decodeCanId_eq (hc.of_pdu2 hpdu2 0xFF) (encodable_pdu2 hpdu2)

/-- A SEGMENT that succeeds ends with the frames of the payload (R84). -/
theorem exec_segment_frames {port : Port} {r : Result} {u : State} (h223 : payload.length ≤ 223)
    (hid : encodeCanId p g a d = .ok id) (hx : exec (.segment p g a d) (s.withInput port payload) = .next u)
    (hr : u.lastResult = some r) : r.frames = segmentFrames id payload := by
  have hseg : exec (.segment p g a d) (s.withInput port payload) = _ :=
    execSegment_of (s := s.withInput port payload) h223 hid
  cases hseg.symm.trans hx
  rw [respond_lastResult] at hr
  cases hr
  rfl

/-- Settles O44: the payload is its own one frame, and completes at once. -/
theorem singleFrameRoundTrip : Obligations.SingleFrameRoundTrip := by
  intro p g a d payload id port r s u h8 hid hx hr hslow hget
  have hdecode := decodeCanId_of_encodeCanId hid
  have haccept := acceptSingleFrame id (s.withInput .rx payload) rfl h8 hget (by rwa [hdecode])
  rw [exec_segment_frames (by omega) hid hx hr, segmentFrames_of_le h8, ← hdecode]
  exact ⟨_, acceptAll_singleton (f := ⟨id, payload⟩) haccept, rfl, respond_lastResult _⟩

/-! ## The frames of a long payload, and the entry they fill (R67 to R69, R89, R90) -/

/-- The stream behind its length byte: what ACCEPT reassembles. -/
def fpBody (payload : List Byte) : List Byte := payload ++ List.replicate (streamPad payload.length) fpFiller

theorem fpStream_eq_cons : fpStream payload = BitVec.ofNat 8 payload.length :: fpBody payload := rfl

theorem fpBody_length : (fpBody payload).length + 1 = 7 * ((payload.length + 7) / 7) := by
  rw [← fpStream_length, fpStream_eq_cons, List.length_cons]

theorem length_le_fpBody : payload.length ≤ (fpBody payload).length := List.length_append ▸ Nat.le_add_right ..

theorem fpBody_take : (fpBody payload).take payload.length = payload := List.take_left

/-- Frame `i` of a payload of 9 bytes or more (R67). -/
def fpFrame (id : CanId) (payload : List Byte) (i : Nat) : Frame := ⟨id, fpFrameData (fpStream payload) i⟩

theorem segmentFrames_eq_map_fpFrame (h9 : 9 ≤ payload.length) :
    segmentFrames id payload = (List.range ((payload.length + 7) / 7)).map (fpFrame id payload) :=
  segmentFrames_of_gt h9

/-- The seven bytes that frame `i + 1` brings. -/
def fpPart (payload : List Byte) (i : Nat) : List Byte := ((fpBody payload).drop (6 + 7 * i)).take 7

theorem fpFrame_zero :
    (fpFrame id payload 0).data = 0x40 :: BitVec.ofNat 8 payload.length :: (fpBody payload).take 6 := rfl

theorem fpFrame_succ (i : Nat) :
    (fpFrame id payload (i + 1)).data = (fpHeaderBase ||| BitVec.ofNat 8 (i + 1)) :: fpPart payload i := by
  simp only [fpFrame, fpFrameData, fpPart, fpStream_eq_cons, fpChunk]
  rw [show 7 * (i + 1) = 6 + 7 * i + 1 by omega, List.drop_succ_cons]

theorem fpHeader_counter {i : Nat} (hi : i < 32) : (fpHeaderBase ||| BitVec.ofNat 8 i).toNat % 32 = i := by
  rw [fpHeader_eq hi, BitVec.toNat_ofNat]
  omega

theorem fpPart_length {i : Nat} (hi : 6 + 7 * (i + 1) ≤ (fpBody payload).length) : (fpPart payload i).length = 7 := by
  simp only [fpPart, List.length_take, List.length_drop]
  omega

/-- The entry that frames 0 to `i` of a payload leave, while bytes are missing. -/
def entryAfter (payload : List Byte) (i : Nat) : Entry where
  total := payload.length
  acc := 6 + 7 * i
  last := i
  buf := (fpBody payload).take (6 + 7 * i)

theorem entryAfter_ok {i : Nat} (hi : 6 + 7 * i < payload.length) (h223 : payload.length ≤ 223) :
    (entryAfter payload i).Ok := by
  refine ⟨?_, rfl, hi, h223⟩
  simp only [entryAfter, fpBody, List.length_take, List.length_append]
  omega

theorem fpFrame_zero_declares (h223 : payload.length ≤ 223) :
    declaredLength (fpFrame id payload 0).data = payload.length := by
  rw [fpFrame_zero, declaredLength, BitVec.toNat_ofNat]
  omega

/-- Frame 0 starts the entry with the first six bytes (R89). -/
theorem startEntry_fpFrame_zero (h223 : payload.length ≤ 223) :
    startEntry (fpFrame id payload 0).data = entryAfter payload 0 := by
  rw [startEntry, fpFrame_zero_declares h223, fpFrame_zero]
  simp [entryAfter, fpFirstChunk]

theorem entryAfter_buf_append (i : Nat) :
    (entryAfter payload i).buf ++ fpPart payload i = (fpBody payload).take (6 + 7 * (i + 1)) :=
  List.take_add.symm

theorem entryAfter_append {i : Nat} (hi : 6 + 7 * (i + 1) ≤ (fpBody payload).length) :
    (entryAfter payload i).append (fpPart payload i) (i + 1) = entryAfter payload (i + 1) := by
  rw [Entry.append, entryAfter_buf_append, fpPart_length hi]
  rfl

/-- Of what frame `i + 1` completes, the declared length is the payload, without the filler (R91). -/
theorem entryAfter_completes {i : Nat} (hi : (entryAfter payload i).total ≤ 6 + 7 * (i + 1)) :
    ((entryAfter payload i).buf ++ fpPart payload i).take (entryAfter payload i).total = payload := by
  rw [entryAfter_buf_append, List.take_take, min_eq_left hi]
  exact fpBody_take

/-! ## The round trip (R94) -/

/-- What R94 compares of the results given: STATUS, VERDICT and MSG. -/
def State.outcomes (s : State) : List (BitVec 8 × Option Verdict × Option PgnMessage) :=
  s.answers.map fun x => (x.result.status, x.result.verdict, x.result.msg)

theorem respond_outcomes (r : Result) : (s.respond r).outcomes = s.outcomes ++ [(r.status, r.verdict, r.msg)] := by
  simp [State.outcomes]

/-- What frames 0 to `i` of a payload change, while bytes are missing. -/
structure HeldAfter (payload : List Byte) (id : CanId) (i : Nat) (s t : State) : Prop where
  table : t.table = s.table.set id (entryAfter payload i)
  localAddr : t.localAddr = s.localAddr
  outcomes : t.outcomes = s.outcomes ++ List.replicate (i + 1) (0x00, some .inProgress, none)

theorem accept_fpFrame_zero (h9 : 9 ≤ payload.length) (h223 : payload.length ≤ 223)
    (hfast : isFastPacket s.bind.model (decodeCanId id).pgn = true) (hget : s.table.get id = none)
    (hroom : s.table.hasSlot s.bind.numFpSlots = true) :
    ∃ t, exec (.accept id) (s.withInput .rx (fpFrame id payload 0).data) = .next t ∧ HeldAfter payload id 0 s t := by
  have h8 : (fpFrame id payload 0).data.length = 8 := by
    have hbody := length_le_fpBody (payload := payload)
    simp only [fpFrame_zero, List.length_cons, List.length_take]
    omega
  have hcount : counterOf (fpFrame id payload 0).data = 0 := by rw [fpFrame_zero, counterOf_cons]; rfl
  have hlen := fpFrame_zero_declares (id := id) h223
  have hstart := acceptFirst_starts (id := id) (s := s.withInput .rx (fpFrame id payload 0).data)
    (by rw [withInput_inp, hlen]; omega) (by rwa [withInput_inp, hlen])
    (by rwa [withInput_table, withInput_bind, erase_of_get_none hget])
  have hx := (exec_accept_frameZero (s := s.withInput .rx _) rfl h8 hcount (.inl hfast)).trans hstart
  refine ⟨_, hx, ?_, rfl, respond_outcomes _⟩
  rw [respond_table, setTable_table, withInput_table, withInput_inp, startEntry_fpFrame_zero h223]

theorem accept_fpFrame_succ {i : Nat} (h223 : payload.length ≤ 223) (hi : 6 + 7 * (i + 1) < payload.length)
    (hget : s.table.get id = none) (ht : HeldAfter payload id i s t) :
    ∃ u, exec (.accept id) (t.withInput .rx (fpFrame id payload (i + 1)).data) = .next u ∧
      HeldAfter payload id (i + 1) s u := by
  obtain ⟨htable, haddr, hout⟩ := ht
  have hfit := hi.le.trans length_le_fpBody
  have hentry : t.table.get id = some (entryAfter payload i) := by rw [htable, get_set_self]
  have hx := exec_accept_appends (s := t.withInput .rx _) rfl (fpFrame_succ (id := id) i) (fpPart_length hfit) hentry
    (entryAfter_ok (by omega) h223) (fpHeader_counter (by omega)) hi
  refine ⟨_, hx, ?_, haddr, ?_⟩
  · rw [respond_table, setTable_table, withInput_table, htable, set_set_of_get_none hget]
    exact congrArg _ (entryAfter_append hfit)
  · rw [respond_outcomes, List.replicate_succ', ← List.append_assoc, ← hout]
    rfl

theorem accept_fpFrame_last {i : Nat} (h223 : payload.length ≤ 223) (hlo : 6 + 7 * i < payload.length)
    (hhi : payload.length ≤ 6 + 7 * (i + 1)) (hget : s.table.get id = none) (ht : HeldAfter payload id i s t) :
    ∃ u, exec (.accept id) (t.withInput .rx (fpFrame id payload (i + 1)).data) = .next u ∧
      u.table = s.table ∧ u.localAddr = s.localAddr ∧
      u.outcomes = t.outcomes ++ [(0x00, some .completed, some (messageOf id payload))] := by
  obtain ⟨htable, haddr, -⟩ := ht
  have hfit : 6 + 7 * (i + 1) ≤ (fpBody payload).length := by
    have hbody := fpBody_length (payload := payload)
    omega
  have hentry : t.table.get id = some (entryAfter payload i) := by rw [htable, get_set_self]
  have hx := acceptCompletesMessage id (entryAfter payload i) _ (fpPart payload i) (t.withInput .rx _) rfl
    (fpFrame_succ (id := id) i) (fpPart_length hfit) hentry (entryAfter_ok hlo h223) (fpHeader_counter (by omega)) hhi
  refine ⟨_, hx, ?_, haddr, ?_⟩
  · rw [respond_table, setTable_table, withInput_table, htable, erase_set_of_get_none hget]
  · rw [respond_outcomes, entryAfter_completes hhi]
    rfl

/-- The frames before the last are each InProgress, by induction on their number. -/
theorem acceptAll_fpFrames (h9 : 9 ≤ payload.length) (h223 : payload.length ≤ 223)
    (hfast : isFastPacket s.bind.model (decodeCanId id).pgn = true) (hget : s.table.get id = none)
    (hroom : s.table.hasSlot s.bind.numFpSlots = true) (i : Nat) (hi : 6 + 7 * i < payload.length) :
    ∃ t, acceptAll ((List.range (i + 1)).map (fpFrame id payload)) s = .next t ∧ HeldAfter payload id i s t := by
  induction i with
  | zero =>
    obtain ⟨t, hx, ht⟩ := accept_fpFrame_zero h9 h223 hfast hget hroom
    exact ⟨t, acceptAll_singleton hx, ht⟩
  | succ i ih =>
    obtain ⟨t, hall, ht⟩ := ih (by omega)
    obtain ⟨u, hx, hu⟩ := accept_fpFrame_succ h223 hi hget ht
    refine ⟨u, ?_, hu⟩
    rw [List.range_succ, List.map_append, acceptAll_append hall]
    exact acceptAll_singleton hx

/-- Settles O43: all frames but the last fill the entry, and the last completes the message. -/
theorem segmentThenAcceptRoundTrip : Obligations.SegmentThenAcceptRoundTrip := by
  intro p g a d payload id port r s u h9 h223 hid hx hr hfast hget hroom
  have hdecode := decodeCanId_of_encodeCanId hid
  obtain ⟨i, hi⟩ : ∃ i, (payload.length + 7) / 7 = i + 2 := ⟨(payload.length + 7) / 7 - 2, by omega⟩
  have hlo : 6 + 7 * i < payload.length := by omega
  obtain ⟨t, hall, ht⟩ := acceptAll_fpFrames h9 h223 (by rwa [hdecode]) hget hroom i hlo
  obtain ⟨v, hlast, htable, haddr, hout⟩ := accept_fpFrame_last h223 hlo (by omega) hget ht
  refine ⟨v, ?_, htable, haddr, ?_⟩
  · rw [exec_segment_frames h223 hid hx hr, segmentFrames_eq_map_fpFrame h9, hi, List.range_succ, List.map_append,
      acceptAll_append hall]
    exact acceptAll_singleton hlast
  · rw [hi, ← hdecode]
    exact hout.trans (congrArg (· ++ _) ht.outcomes)

end Sys2Proof.Machine
end

section
/-! PROOFS, family 42_group_function.md. The bits that packLE packs and the bytes of the two payloads; what each BUILD command
answers, and what is known of a message it has answered; and the statements about the Group Function builder that follow. -/

namespace Sys2Proof.Machine

variable {s t : State} {c : Pgn} {d a : Addr} {f : BitVec 8} {fd : FieldDesc} {r : Result} {m : PgnMessage}
  {raw : BitVec 64} {w : Nat}

/-! ## Packing (R102) -/

theorem byteAt_getLsbD {n k i : Nat} (v : BitVec n) (hi : i < 8) : (byteAt v k).getLsbD i = v.getLsbD (8 * k + i) := by
  simp [byteAt, hi]

/-- The filler stands in the bits from the width on. -/
theorem or_filler_getLsbD {j : Nat} (hj : j < 64) :
    (raw ||| BitVec.allOnes 64 <<< w).getLsbD j = (raw.getLsbD j || decide (w ≤ j)) := by
  simp only [BitVec.getLsbD_or, BitVec.getLsbD_shiftLeft, BitVec.getLsbD_allOnes]
  by_cases h : w ≤ j
  · simp [hj, h, show j - w < 64 by omega]
  · simp [h, show j < w by omega]

theorem packLE_getLsbD {j : Nat} (hw : w ≤ 64) (hj : j < 8 * (packLE raw w).length) :
    ((packLE raw w).getD (j / 8) 0).getLsbD (j % 8) = (raw.getLsbD j || decide (w ≤ j)) := by
  rw [packLE_length] at hj
  rw [packLE_getD (by omega), byteAt_getLsbD _ (by omega), Nat.div_add_mod]
  exact or_filler_getLsbD (by omega)

/-- The bits BUILD_COMMAND drops above the width are filler in what it packs (R99, R102). -/
theorem packLE_lowBits_getLsbD {j : Nat} (hw : w ≤ 64) (hj : j < 8 * (packLE (lowBits raw w) w).length) :
    ((packLE (lowBits raw w) w).getD (j / 8) 0).getLsbD (j % 8) = if j < w then raw.getLsbD j else true := by
  have hbit := packLE_getLsbD hw hj
  rw [packLE_length] at hj
  rw [hbit, lowBits_getLsbD (by omega)]
  by_cases h : j < w
  · simp [h]
  · simp [h, show w ≤ j by omega]

/-- Settles O50: byte `j / 8` of what is packed holds bit `j`. -/
theorem packLittleEndian : Obligations.PackLittleEndian :=
  fun _ _ _ hw => ⟨packLE_length, fun _ => packLE_getLsbD hw⟩

/-! ## The payloads (R70, R71) -/

theorem requestPayload_eq (c : Pgn) :
    requestPayload c = [0x00] ++ pgnBytes c ++
      [0xFF, 0xFF, 0xFF, 0xFF, 0xFF, 0xFF, 0x02, 0x01, 0xE4, 0x07, 0x03, 0x04] := by
  rw [requestPayload, le24_pgn, identificationPairs_eq]
  rfl

theorem commandPayload_eq (prio : Byte) (c : Pgn) (f : BitVec 8) (raw : BitVec 64) (w : Nat) :
    commandPayload prio c f raw w = [0x01] ++ pgnBytes c ++
      [prio, 0x03, 0x01, 0xE4, 0x07, 0x03, 0x04, f + 1] ++ packLE raw w := by
  rw [commandPayload, le24_pgn, identificationPairs_eq]
  rfl

theorem commandPayload_length (prio : Byte) (c : Pgn) (f : BitVec 8) (raw : BitVec 64) (w : Nat) :
    (commandPayload prio c f raw w).length = 12 + (w + 7) / 8 := by
  simp [commandPayload_eq, pgnBytes]
  omega

/-! ## What BUILD_COMMAND answers (R99, R100) -/

theorem exec_buildCommand_of (hd : s.inp.dp = []) (ha : s.localAddr = some a)
    (hfd : resolveField s.bind.model c f = .ok fd) :
    exec (.buildCommand c d f) s = .next (s.respond { Result.ok with
      msg := some (groupFunctionMessage s.bind a d (commandPayload s.bind.cmdPrioByte c f
        (lowBits (quantize s.bind.model fd s.inp.vp) fd.width) fd.width)) }) := by
  simp [exec, execBuildCommand, withEmptyDp_of hd, ha, hfd]

theorem exec_buildCommand_of_error {st : Status} (hd : s.inp.dp = []) (ha : s.localAddr = some a)
    (hst : resolveField s.bind.model c f = .error st) :
    exec (.buildCommand c d f) s = .next (s.respond (Result.raised st)) := by
  simp [exec, execBuildCommand, withEmptyDp_of hd, ha, hst]

/-- The lookup fails for each of R100's causes. -/
theorem resolveField_of_cause {model : FieldModel}
    (h : f = 255 ∨ fieldSchema model c f = none ∨
      ∃ fd, fieldSchema model c f = some fd ∧ (fd.width = 0 ∨ 64 < fd.width)) :
    resolveField model c f = .error .schemaResolutionError := by
  cases hres : resolveField model c f with
  | error st => rw [resolveField_error hres]
  | ok fd =>
    obtain ⟨hf, hsome, h1, h64⟩ := resolveField_ok hres
    rcases h with h255 | hnone | ⟨fd', hsome', hwidth⟩
    · exact absurd h255 hf
    · exact nomatch hsome.symm.trans hnone
    · obtain rfl : fd = fd' := Option.some.inj (hsome.symm.trans hsome')
      omega

/-- Settles O48: the lookup raises, once LOCAL_ADDR is known to be set. -/
theorem schemaResolutionRaises : Obligations.SchemaResolutionRaises := by
  intro c d f s hd ha hcause
  obtain ⟨a, ha⟩ := Option.ne_none_iff_exists'.mp ha
  exact exec_buildCommand_of_error hd ha (resolveField_of_cause hcause)

/-! ## The messages, byte by byte (R97 to R99) -/

/-- Settles O46: the message of BUILD_REQUEST's equation, its payload written out. -/
theorem buildRequestMessage : Obligations.BuildRequestMessage := by
  intro c a s hd ha
  rw [exec_buildRequest_of hd ha, requestPayload_eq]
  rfl

/-- Settles O47: the message of BUILD_COMMAND's equation, its payload written out; the value bytes are packLE's. -/
theorem buildCommandMessage : Obligations.BuildCommandMessage := by
  intro c d f a fd s hd ha hf hfd h1 h64
  refine ⟨packLE (lowBits (quantize s.bind.model fd s.inp.vp) fd.width) fd.width, ?_, packLE_length,
    fun j => packLE_lowBits_getLsbD h64⟩
  rw [exec_buildCommand_of hd ha (resolveField_of hf hfd h1 h64), commandPayload_eq]
  rfl

/-! ## A message that a BUILD command has answered -/

theorem msg_of_respond {q : Result} (hr : (s.respond q).lastResult = some r) (hm : r.msg = some m) : q.msg = some m := by
  rw [respond_lastResult] at hr
  cases hr
  exact hm

theorem exec_buildRequest_msg (h : exec (.buildRequest c) s = .next t) (hr : t.lastResult = some r)
    (hm : r.msg = some m) :
    ∃ a, s.localAddr = some a ∧ m = groupFunctionMessage s.bind a broadcast (requestPayload c) := by
  rcases execBuildRequest_cases h with ⟨st, -, rfl⟩ | ⟨a, -, ha, rfl⟩
  · exact nomatch msg_of_respond hr hm
  · exact ⟨a, ha, (Option.some.inj (msg_of_respond hr hm)).symm⟩

theorem exec_buildCommand_msg (h : exec (.buildCommand c d f) s = .next t) (hr : t.lastResult = some r)
    (hm : r.msg = some m) :
    ∃ a fd, s.localAddr = some a ∧ resolveField s.bind.model c f = .ok fd ∧
      m = groupFunctionMessage s.bind a d (commandPayload s.bind.cmdPrioByte c f
        (lowBits (quantize s.bind.model fd s.inp.vp) fd.width) fd.width) := by
  rcases execBuildCommand_cases h with ⟨st, -, rfl⟩ | ⟨a, fd, -, ha, hfd, rfl⟩
  · exact nomatch msg_of_respond hr hm
  · exact ⟨a, fd, ha, hfd, (Option.some.inj (msg_of_respond hr hm)).symm⟩

/-- Settles O51: the two pairs and their count stand at fixed offsets of either payload. -/
theorem identificationPairsFirst : Obligations.IdentificationPairsFirst := by
  intro s t r m hr hm
  constructor
  · intro c h
    obtain ⟨a, -, rfl⟩ := exec_buildRequest_msg h hr hm
    rfl
  · intro c d f h
    obtain ⟨a, fd, -, -, rfl⟩ := exec_buildCommand_msg h hr hm
    rfl

/-- Either command's message is R72's envelope around 13 to 20 bytes (R104). -/
theorem built_message (ha : s.localAddr = some a) (hr : t.lastResult = some r) (hm : r.msg = some m)
    (h : (∃ c, exec (.buildRequest c) s = .next t ∧ d = 0xFF) ∨ ∃ c f, exec (.buildCommand c d f) s = .next t) :
    ∃ payload, m = groupFunctionMessage s.bind a d payload ∧ 13 ≤ payload.length ∧ payload.length ≤ 20 := by
  rcases h with ⟨c, h, rfl⟩ | ⟨c, f, h⟩
  · obtain ⟨a', ha', rfl⟩ := exec_buildRequest_msg h hr hm
    cases ha.symm.trans ha'
    exact ⟨_, rfl, by simp, by simp⟩
  · obtain ⟨a', fd, ha', hfd, rfl⟩ := exec_buildCommand_msg h hr hm
    cases ha.symm.trans ha'
    obtain ⟨-, -, h1, h64⟩ := resolveField_ok hfd
    exact ⟨_, rfl, by rw [commandPayload_length]; omega, by rw [commandPayload_length]; omega⟩

/-! ## SEGMENT of a built message (R104) -/

/-- The default GF_PGN's identifier, to any destination (R104). -/
theorem encodeCanId_groupFunction_to (a d : Addr) :
    encodeCanId gfPriority 0x1ED00 a d = .ok (0x09ED0000#29 ||| d.setWidth 29 <<< 8 ||| a.setWidth 29) := by
  rw [encodeCanId_pdu1 (by decide) (by decide)]
  rfl

/-- Settles O52: GF_PGN encodes, 13 to 20 bytes fit, and every frame is on the identifier encoded. -/
theorem builtMessagesSegment : Obligations.BuiltMessagesSegment := by
  intro s t r m port a ⟨hpdu1, hlow⟩ hr hm ha d h
  obtain ⟨payload, rfl, h13, h20⟩ := built_message ha hr hm h
  obtain ⟨id, hid⟩ : ∃ id, encodeCanId gfPriority s.bind.gfPgn a d = .ok id := encodeCanId_succeeds fun _ => hlow
  have hcount : (segmentFrames id payload).length = (payload.length + 7) / 7 := segmentFrames_count (by omega)
  have hseg := execSegment_of (s := t.withInput port payload) (h20.trans (by decide)) hid
  refine ⟨rfl, hpdu1, hlow, h13, h20, segmentFrames id payload, by omega, by omega, hseg, fun hdefault fr hfr => ?_⟩
  rw [hdefault, encodeCanId_groupFunction_to] at hid
  cases hid
  exact (segmentFrames_full (by omega) hfr).1

end Sys2Proof.Machine
end

section
/-! PROOFS, family 43_diag_and_config.md. HEX(v, k) one digit at a time, and that the two readers of the grammar undo the
printing of a line and are undone by it; what each command of the family answers, one equation a case; and the statements
about the diagnostic line and the configuration that follow. -/

namespace Sys2Proof.Machine

variable {s : State} {n k j acc x : Nat} {v : BitVec n} {text rest bytes : List Byte} {id : CanId} {f : Frame}
  {pairs : List (Byte × Byte)} {reg : BitVec 8} {r : CfgReg} {value : BitVec 32}

/-! ## Digits, most significant first (R105) -/

theorem hexDigits_succ (v : BitVec n) (k : Nat) :
    hexDigits v (k + 1) = hexDigit (v.extractLsb' (4 * k) 4) :: hexDigits v k := by
  simp [hexDigits, List.range_succ_eq_map, Function.comp_def, Nat.add_comm, Nat.sub_sub]

/-- Digit `k` of a value, in arithmetic. -/
theorem digit_toNat (v : BitVec n) (k : Nat) : (v.extractLsb' (4 * k) 4).toNat = v.toNat / 16 ^ k % 16 := by
  rw [BitVec.extractLsb'_toNat, Nat.shiftRight_eq_div_pow, pow_mul]
  norm_num

theorem hexDigits_byte (b : Byte) : hexDigits b 2 = [hexDigit (b.extractLsb' 4 4), hexDigit (b.extractLsb' 0 4)] := rfl

theorem hexDigits_byte_eq_upperHex (b : Byte) : hexDigits b 2 = [upperHex (b.toNat / 16), upperHex (b.toNat % 16)] := by
  have hhi : (b.extractLsb' 4 4).toNat = b.toNat / 16 := by
    have := b.isLt
    rw [digit_toNat b 1]
    omega
  have hlo : (b.extractLsb' 0 4).toNat = b.toNat % 16 := by simp
  rw [hexDigits_byte, hexDigit_eq, hexDigit_eq, hhi, hlo]

theorem byte_of_digits (b : Byte) : b.extractLsb' 4 4 ++ b.extractLsb' 0 4 = b := by revert b; decide

theorem digits_of_byte (hi lo : BitVec 4) :
    (hi ++ lo).extractLsb' 4 4 = hi ∧ (hi ++ lo).extractLsb' 0 4 = lo := by revert hi lo; decide

/-- Only the low `k` digits are printed, so the value read is taken modulo `16 ^ k`. -/
theorem parseDigits_hexDigits :
    parseDigits k acc (hexDigits v k ++ rest) = some (acc * 16 ^ k + v.toNat % 16 ^ k, rest) := by
  induction k generalizing acc with
  | zero => simp [parseDigits, hexDigits, Nat.mod_one]
  | succ k ih =>
    rw [hexDigits_succ, List.cons_append]
    simp only [parseDigits, hexValue_hexDigit]
    rw [ih, digit_toNat, pow_succ, Nat.mod_mul]
    congr 2
    ring

/-- The first of `k + 1` digits read, and the reading of the others. -/
theorem parseDigits_succ (h : parseDigits (k + 1) acc text = some (x, rest)) :
    ∃ b w text', text = b :: text' ∧ hexValue b = some w ∧
      parseDigits k (16 * acc + w.toNat) text' = some (x, rest) := by
  cases text with
  | nil => cases h
  | cons b text =>
    simp only [parseDigits] at h
    split at h
    · cases h
    · exact ⟨b, _, text, rfl, ‹_›, h⟩

/-- What was read before stands above the `k` digits. -/
theorem parseDigits_div (h : parseDigits k acc text = some (x, rest)) : x / 16 ^ k = acc := by
  induction k generalizing acc text with
  | zero => simp_all [parseDigits]
  | succ k ih =>
    obtain ⟨b, w, text, rfl, -, h⟩ := parseDigits_succ h
    have := w.isLt
    rw [pow_succ, ← Nat.div_div_eq_div_mul, ih h]
    omega

/-- Digits without lower case are the ones HEX writes of any value that agrees in the low `k` digits (R107). -/
theorem hexDigits_of_parseDigits (h : parseDigits k acc text = some (x, rest)) (hupper : ∀ b ∈ text, b.toNat < 0x61)
    (hv : v.toNat % 16 ^ k = x % 16 ^ k) : hexDigits v k ++ rest = text := by
  induction k generalizing acc text with
  | zero => simp_all [parseDigits, hexDigits]
  | succ k ih =>
    obtain ⟨b, w, text, rfl, hw, h⟩ := parseDigits_succ h
    rw [pow_succ] at hv
    have htop : v.extractLsb' (4 * k) 4 = w := by
      have := w.isLt
      apply BitVec.eq_of_toNat_eq
      rw [digit_toNat, ← Nat.mod_mul_right_div_self, hv, Nat.mod_mul_right_div_self, parseDigits_div h]
      omega
    have hlow : v.toNat % 16 ^ k = x % 16 ^ k := by
      rw [← Nat.mod_mul_right_mod v.toNat _ 16, hv, Nat.mod_mul_right_mod]
    rw [hexDigits_succ, htop, ← eq_hexDigit_of_hexValue hw (hupper b (by simp)), List.cons_append,
      ih h (fun c hc => hupper c (by simp [hc])) hlow]

/-! ## Data bytes (R76) -/

/-- The characters of a line between its identifier and its end. -/
def byteText (bytes : List Byte) : List Byte := bytes.flatMap fun b => 0x20 :: hexDigits b 2

theorem lineOf_eq (f : Frame) : lineOf f = hexDigits (f.id.setWidth 32) 8 ++ (byteText f.data ++ lineEnd) := by
  rw [lineOf, byteText, List.append_assoc]

@[simp] theorem byteText_length : (byteText bytes).length = 3 * bytes.length := by
  simp [byteText, Nat.mul_comm]

theorem byteText_cons (b : Byte) (bytes : List Byte) :
    byteText (b :: bytes) =
      0x20 :: hexDigit (b.extractLsb' 4 4) :: hexDigit (b.extractLsb' 0 4) :: byteText bytes := rfl

/-- Byte `k` fills the three characters from `3 * k` on. -/
theorem byteText_getElem? {b : Byte} (h : bytes[k]? = some b) (hj : j < 3) :
    (byteText bytes)[3 * k + j]? = (0x20 :: hexDigits b 2)[j]? := by
  induction bytes generalizing k with
  | nil => simp at h
  | cons c bytes ih =>
    cases k with
    | zero =>
      cases h
      rw [byteText, List.flatMap_cons, List.getElem?_append_left (by simpa using hj), Nat.mul_zero, Nat.zero_add]
    | succ k =>
      rw [byteText_cons, show 3 * (k + 1) + j = (3 * k + j) + 1 + 1 + 1 by ring]
      simpa using ih (by simpa using h)

theorem parseTail_byteText (h : bytes.length ≤ k) : parseTail k (byteText bytes ++ lineEnd) = some bytes := by
  refine parseTail_iff.mpr
    ⟨bytes.map fun b => (hexDigit (b.extractLsb' 4 4), hexDigit (b.extractLsb' 0 4)), ?_, h, ?_⟩
  · rw [List.flatMap_map]; rfl
  · refine List.forall₂_map_left_iff.mpr (List.forall₂_same.mpr fun b _ => ?_)
    exact isHexPair_iff.mpr ⟨_, _, hexValue_hexDigit _, hexValue_hexDigit _, byte_of_digits b⟩

/-- Two digits without lower case are the ones HEX writes of their byte. -/
theorem hexDigits_of_isHexPair {hi lo b : Byte} (h : IsHexPair (hi, lo) b) (hhi : hi.toNat < 0x61)
    (hlo : lo.toNat < 0x61) : hexDigits b 2 = [hi, lo] := by
  obtain ⟨u, w, hu, hw, rfl⟩ := isHexPair_iff.mp h
  obtain ⟨hfst, hsnd⟩ := digits_of_byte u w
  rw [hexDigits_byte, hfst, hsnd, eq_hexDigit_of_hexValue hu hhi, eq_hexDigit_of_hexValue hw hlo]

theorem byteText_of_pairs (h : List.Forall₂ IsHexPair pairs bytes)
    (hupper : ∀ b ∈ pairs.flatMap (fun p => [0x20, p.1, p.2]), b.toNat < 0x61) :
    byteText bytes = pairs.flatMap fun p => [0x20, p.1, p.2] := by
  induction h with
  | nil => rfl
  | @cons p b pairs bytes hp _ ih =>
    simp only [List.flatMap_cons, List.mem_append] at hupper ⊢
    rw [← ih fun c hc => hupper c (.inr hc), byteText, List.flatMap_cons,
      hexDigits_of_isHexPair hp (hupper p.1 (by simp)) (hupper p.2 (by simp))]
    rfl

theorem byteText_of_parseTail (h : parseTail k text = some bytes) (hupper : ∀ b ∈ text, b.toNat < 0x61) :
    byteText bytes ++ lineEnd = text := by
  obtain ⟨pairs, rfl, -, hpairs⟩ := parseTail_iff.mp h
  rw [byteText_of_pairs hpairs fun b hb => hupper b (List.mem_append_left _ hb)]
  rfl

/-! ## The text of a line (R76, R105) -/

theorem lineOf_length : (lineOf f).length = 8 + 3 * f.data.length + 2 := by
  simp [lineOf_eq, lineEnd]
  omega

theorem lineOf_getElem?_id (hj : j < 8) : (lineOf f)[j]? = some (upperHex (f.id.toNat / 16 ^ (7 - j) % 16)) := by
  rw [lineOf_eq, List.getElem?_append_left (by simpa using hj), hexDigits_getElem? hj,
    BitVec.toNat_setWidth_of_le (by decide)]

/-- Byte `k` of the data stands in the line as it does in the data's text, 8 characters on. -/
theorem lineOf_getElem?_byteText {b : Byte} (hb : f.data[k]? = some b) (hj : j < 3) :
    (lineOf f)[8 + 3 * k + j]? = (0x20 :: hexDigits b 2)[j]? := by
  obtain ⟨hk, -⟩ := List.getElem?_eq_some_iff.mp hb
  rw [← byteText_getElem? hb hj, lineOf_eq, Nat.add_assoc, List.getElem?_append_right (by simp), hexDigits_length,
    Nat.add_sub_cancel_left, List.getElem?_append_left (by rw [byteText_length]; omega)]

theorem lineOf_getElem?_data {b : Byte} (hb : f.data[k]? = some b) :
    (lineOf f)[8 + 3 * k]? = some 0x20 ∧ (lineOf f)[8 + 3 * k + 1]? = some (upperHex (b.toNat / 16)) ∧
      (lineOf f)[8 + 3 * k + 2]? = some (upperHex (b.toNat % 16)) := by
  have hchar := fun j => lineOf_getElem?_byteText (j := j) hb
  rw [hexDigits_byte_eq_upperHex] at hchar
  exact ⟨hchar 0 (by decide), hchar 1 (by decide), hchar 2 (by decide)⟩

theorem lineOf_drop : (lineOf f).drop (8 + 3 * f.data.length) = [0x0D, 0x0A] := by
  rw [lineOf_eq, ← List.append_assoc]
  exact List.drop_left' (by simp)

/-! ## Lines read (R106, R107) -/

theorem parseLine_ok_iff : parseLine text = .ok f ↔
    ∃ rest, parseDigits 8 0 text = some (f.id.toNat, rest) ∧ parseTail 8 rest = some f.data := by
  unfold parseLine
  constructor
  · intro h
    split at h
    · cases h
    · rename_i x rest hdigits
      split at h
      · cases h
      · rename_i bytes htail
        split at h
        · rename_i hx
          cases h
          exact ⟨rest, by rw [hdigits, BitVec.toNat_ofNat, Nat.mod_eq_of_lt hx], htail⟩
        · cases h
  · rintro ⟨rest, hdigits, htail⟩
    simp [hdigits, maxDlc, htail, f.id.isLt]

theorem isLine_iff : IsLine text id bytes ↔ parseLine text = .ok ⟨id, bytes⟩ := by
  rw [parseLine_ok_iff]
  constructor
  · rintro ⟨digits, values, pairs, rfl, hlen, hdigits, hvalue, hbytes, hpairs⟩
    rw [List.append_assoc]
    exact ⟨_, parseDigits_iff.mpr ⟨digits, values, rfl, hlen, hdigits, hvalue⟩,
      parseTail_iff.mpr ⟨pairs, rfl, hbytes, hpairs⟩⟩
  · rintro ⟨rest, htext, htail⟩
    obtain ⟨digits, values, rfl, hlen, hdigits, hvalue⟩ := parseDigits_iff.mp htext
    obtain ⟨pairs, rfl, hbytes, hpairs⟩ := parseTail_iff.mp htail
    exact ⟨digits, values, pairs, (List.append_assoc ..).symm, hlen, hdigits, hvalue, hbytes, hpairs⟩

theorem parseLine_lineOf (h : f.data.length ≤ 8) : parseLine (lineOf f) = .ok f := by
  have hid : (f.id.setWidth 32).toNat % 16 ^ 8 = f.id.toNat := by
    have := f.id.isLt
    rw [BitVec.toNat_setWidth_of_le (by decide)]
    omega
  rw [lineOf_eq]
  refine parseLine_ok_iff.mpr ⟨_, ?_, parseTail_byteText h⟩
  rw [parseDigits_hexDigits, hid, Nat.zero_mul, Nat.zero_add]

theorem lineOf_of_parseLine (h : parseLine text = .ok f) (hupper : ∀ b ∈ text, b.toNat < 0x61) : lineOf f = text := by
  obtain ⟨rest, hdigits, htail⟩ := parseLine_ok_iff.mp h
  have hid : (f.id.setWidth 32).toNat % 16 ^ 8 = f.id.toNat % 16 ^ 8 := by simp
  have htext := hexDigits_of_parseDigits hdigits hupper hid
  rw [lineOf_eq, byteText_of_parseTail htail fun b hb => hupper b (htext ▸ List.mem_append_right _ hb), htext]

/-! ## What FORMAT_LINE and PARSE_LINE answer -/

theorem exec_formatLine_of (hd : s.inp.dp.length ≤ 8) :
    exec (.formatLine id) s = .next (s.respond { Result.ok with line := lineOf ⟨id, s.inp.dp⟩ }) :=
  withFrameDp_of hd

theorem exec_parseLine_of (h : parseLine s.inp.dp = .ok f) :
    exec .parseLine s = .next (s.respond { Result.ok with id := some f.id, frames := [f] }) := by
  simp [exec, execParseLine, h]

theorem exec_parseLine_of_error {st : Status} (h : parseLine s.inp.dp = .error st) :
    exec .parseLine s = .next (s.respond (Result.raised .malformedLine)) := by
  simp [exec, execParseLine, h, parseLine_error h]

theorem respond_inj {q r : Result} : s.respond q = s.respond r ↔ q = r := by
  refine ⟨fun h => ?_, fun h => h ▸ rfl⟩
  simpa using congrArg State.lastResult h

/-- The frame of PARSE_LINE's answer is the frame read: a failure answers no frame. -/
theorem parseLine_of_exec (h : exec .parseLine s = .next (s.respond { Result.ok with id := some id, frames := [f] })) :
    parseLine s.inp.dp = .ok f := by
  cases hp : parseLine s.inp.dp with
  | error st =>
    rw [exec_parseLine_of_error hp, Host.Outcome.next.injEq, respond_inj] at h
    cases h
  | ok g =>
    rw [exec_parseLine_of hp, Host.Outcome.next.injEq, respond_inj] at h
    cases h
    rfl

/-- Settles O54: the identifier's digits, then three characters a byte, then the line's end. -/
theorem formatLineText : Obligations.FormatLineText :=
  fun id s hd => ⟨lineOf ⟨id, s.inp.dp⟩, exec_formatLine_of hd, lineOf_length, fun _ => lineOf_getElem?_id,
    fun _ _ => lineOf_getElem?_data (f := ⟨id, s.inp.dp⟩), lineOf_drop (f := ⟨id, s.inp.dp⟩)⟩

/-- Settles O55: the reader accepts the grammar's lines. -/
theorem parseLineReadsGrammar : Obligations.ParseLineReadsGrammar :=
  fun _ _ _ h => exec_parseLine_of (isLine_iff.mp h)

/-- Settles O56: whatever the reader accepts is a line of the grammar. -/
theorem parseLineRejectsOthers : Obligations.ParseLineRejectsOthers := by
  intro s h
  cases hp : parseLine s.inp.dp with
  | error st => exact exec_parseLine_of_error hp
  | ok f => exact absurd (isLine_iff.mpr hp) (h f.id f.data)

/-- Settles O57: reading undoes printing, and printing undoes reading where no digit is in lower case. -/
theorem lineRoundTrip : Obligations.LineRoundTrip := by
  constructor
  · intro id s hd
    refine ⟨lineOf ⟨id, s.inp.dp⟩, exec_formatLine_of hd, fun s' hs' => ?_⟩
    exact exec_parseLine_of (hs' ▸ parseLine_lineOf hd)
  · intro id f s s' h hupper hdata
    have hf : parseLine s.inp.dp = .ok f := parseLine_of_exec h
    have hlen : s'.inp.dp.length ≤ 8 := hdata ▸ parseLine_length hf
    rw [exec_formatLine_of hlen, hdata, lineOf_of_parseLine hf hupper]
    rfl

/-! ## Registers (R23, R108, R109) -/

theorem exec_cfgRead_of {w : BitVec 32} (hd : s.inp.dp = []) (hr : cfgRegOf reg = some r) (hw : s.readCfg r = some w) :
    exec (.cfgRead reg) s = .next (s.respond { Result.ok with cfgval := some w }) := by
  simp [exec, execCfgRead, withEmptyDp_of hd, hr, hw]

theorem exec_cfgRead_of_none (hd : s.inp.dp = []) (hr : cfgRegOf reg = none) :
    exec (.cfgRead reg) s = .next (s.respond (Result.raised .illegalOperation)) := by
  simp [exec, execCfgRead, withEmptyDp_of hd, hr]

theorem exec_cfgWrite_of_none (hd : s.inp.dp = []) (hr : cfgRegOf reg = none) :
    exec (.cfgWrite reg value) s = .next (s.respond (Result.raised .illegalOperation)) := by
  simp [exec, execCfgWrite, withEmptyDp_of hd, hr]

theorem exec_cfgWrite_readOnly (hd : s.inp.dp = []) (hr : cfgRegOf reg = some r) (hne : r ≠ .localAddr) :
    exec (.cfgWrite reg value) s = .next (s.respond (Result.raised .readOnlyRegister)) := by
  simp only [exec, execCfgWrite, withEmptyDp_of hd, hr]
  cases r with
  | localAddr => exact absurd rfl hne
  | _ => rfl

/-- VALUE[31:8] is zero exactly for the values that fit LOCAL_ADDR. -/
theorem value_high_eq_zero_iff : value.extractLsb' 8 24 = 0 ↔ value.toNat ≤ 0xFF := by
  have := value.isLt
  rw [← BitVec.toNat_inj, BitVec.extractLsb'_toNat, Nat.shiftRight_eq_div_pow, BitVec.ofNat_eq_ofNat,
    BitVec.toNat_zero]
  omega

theorem exec_cfgWrite_localAddr_of (hd : s.inp.dp = []) (hv : value.toNat ≤ 0xFF) :
    exec (.cfgWrite 0 value) s = .next ((s.setLocalAddr (BitVec.ofNat 8 value.toNat)).respond Result.ok) := by
  simp only [exec, execCfgWrite, withEmptyDp_of hd]
  exact if_pos (value_high_eq_zero_iff.mpr hv)

theorem exec_cfgWrite_localAddr_wide (hd : s.inp.dp = []) (hv : 0xFF < value.toNat) :
    exec (.cfgWrite 0 value) s = .next (s.respond (Result.raised .illegalOperation)) := by
  simp only [exec, execCfgWrite, withEmptyDp_of hd]
  exact if_neg (value_high_eq_zero_iff.not.mpr (not_le.mpr hv))

/-- Every number up to 7 names a register (R23). -/
theorem cfgRegOf_some (h : reg.toNat ≤ 7) : ∃ r, cfgRegOf reg = some r := by
  unfold cfgRegOf
  interval_cases reg.toNat <;> exact ⟨_, rfl⟩

/-- Settles O58: each number's own register, and none from 8 on. -/
theorem cfgReadValues : Obligations.CfgReadValues := by
  intro reg s hd
  split_ifs with h0 h1 h2 h3 h4 h5 h6 h7
  · subst h0
    cases ha : s.localAddr with
    | none => exact exec_cfgRead_localAddr_unset hd ha
    | some a => exact exec_cfgRead_localAddr_of hd ha
  -- the registers that always hold a value, 0x01 to 0x07
  iterate 7 (subst reg; exact exec_cfgRead_of hd rfl rfl)
  · exact exec_cfgRead_of_none hd (cfgRegOf_none (by bv_omega))

/-- Settles O59: the number names no register, a read-only one, or LOCAL_ADDR. -/
theorem cfgWriteEffect : Obligations.CfgWriteEffect := by
  intro reg value s hd
  split_ifs with hunknown hne hwide
  · exact exec_cfgWrite_of_none hd (cfgRegOf_none hunknown)
  · obtain ⟨r, hr⟩ := cfgRegOf_some (not_lt.mp hunknown)
    exact exec_cfgWrite_readOnly hd hr fun hr0 => hne (cfgRegOf_localAddr (hr0 ▸ hr))
  · obtain rfl := not_not.mp hne
    exact exec_cfgWrite_localAddr_wide hd hwide
  · obtain rfl := not_not.mp hne
    exact exec_cfgWrite_localAddr_of hd (not_lt.mp hwide)

/-- Settles O23: DP is empty, and NOP checks nothing more. -/
theorem nopCompletes : Obligations.NopCompletes := fun _ hd => withEmptyDp_of hd

end Sys2Proof.Machine
end

section
/-! PROOFS, family 60_exceptions.md. A command either raises, which leaves its status alone, or gives an answer whose status
is OK; and what a step does when no command waits. -/

namespace Sys2Proof.Machine

variable {s t : State} {i : Instr} {id : CanId}

/-! ## A raise has no other effect (R111, R112) -/

theorem AcceptEnds.status_ok (h : AcceptEnds id s t) : ∃ r, t.lastResult = some r ∧ r.status = Status.code .ok := by
  obtain ⟨tbl, r, rfl, hr, -⟩ := h
  refine ⟨r, respond_lastResult r, ?_⟩
  rcases hr with ⟨v, rfl, -⟩ | ⟨m, rfl⟩
  · exact verdictOnly_status v
  · exact completed_status m

/-- ACCEPT's discards are among the answers with status OK (R113). -/
theorem exec_raises_or_status_ok (h : exec i s = .next t) :
    (∃ st, t = s.respond (Result.raised st)) ∨ ∃ r, t.lastResult = some r ∧ r.status = Status.code .ok := by
  rcases exec_ends h with ⟨st, -, ht⟩ | ⟨r, rfl, hs, -, -⟩ | ⟨v, -, -, rfl⟩ | ⟨-, -, rfl⟩ | ⟨id, -, -, haccept⟩
  · exact .inl ⟨st, ht⟩
  · exact .inr ⟨r, respond_lastResult r, hs⟩
  · exact .inr ⟨_, respond_lastResult _, ok_status⟩
  · exact .inr ⟨_, respond_lastResult _, ok_status⟩
  · exact .inr haccept.status_ok

/-- Settles O21: an answer with another status than OK is a raise's. -/
theorem raiseHasNoOtherEffect : Obligations.RaiseHasNoOtherEffect := by
  intro i s t r h hr hne
  rcases exec_raises_or_status_ok h with ⟨st, rfl⟩ | ⟨r', hr', hok⟩
  · obtain rfl : Result.raised st = r := Option.some.inj ((respond_lastResult _).symm.trans hr)
    rfl
  · obtain rfl : r' = r := Option.some.inj (hr'.symm.trans hr)
    exact absurd hok hne

/-- Settles O22: the two tables, row by row. -/
theorem statusCodes : Obligations.StatusCodes :=
  ⟨rfl, rfl, rfl, rfl, rfl, rfl, rfl, rfl, rfl, rfl, rfl, rfl, rfl⟩

/-! ## Between commands (R16, R126) -/

/-- Settles O8: neither port is served. -/
theorem holdsStateBetweenCommands : Obligations.HoldsStateBetweenCommands := by
  intro s hreset htx hrx
  have hport : s.nextPort = none := nextPort_eq_none.mpr ⟨htx, hrx⟩
  simp only [step, hreset, hport]

end Sys2Proof.Machine
end

section
/-! PROOFS, family 70_reset_and_hazards.md. What the reset event is as a step, what each register reads in the state it
leaves, and what any other step keeps. The state right after power-up is one that a reset event leaves, so what is said of
the event holds of it. -/

namespace Sys2Proof.Machine

variable {s t : State} {b : Binding} {i : Instr} {n : Nat}

/-! ## The registers (R23, R25, R128) -/

@[simp] theorem readCfg_mfrCode : s.readCfg .mfrCode = some 2020 := rfl
@[simp] theorem readCfg_industryCode : s.readCfg .industryCode = some 4 := rfl
@[simp] theorem readCfg_gfPriority : s.readCfg .gfPriority = some 2 := rfl
@[simp] theorem readCfg_gfPgn : s.readCfg .gfPgn = some (s.bind.gfPgn.setWidth 32) := rfl
@[simp] theorem readCfg_cmdPrioByte : s.readCfg .cmdPrioByte = some (s.bind.cmdPrioByte.setWidth 32) := rfl

theorem readCfg_fpActive_of_table_nil (h : s.table = []) : s.readCfg .fpActive = some 0 := by
  simp [State.readCfg, h, Memory.count]

theorem readCfg_fpSlots_unbounded (h : s.bind.numFpSlots = none) : s.readCfg .fpSlots = some 0 := by
  simp [State.readCfg, h, slotsValue]

theorem readCfg_fpSlots_of_lt (h : s.bind.numFpSlots = some n) (hn : n < 2 ^ 32) :
    s.readCfg .fpSlots = some (BitVec.ofNat 32 n) := by
  simp only [State.readCfg, h, slotsValue, if_pos hn]

/-! ## The reset event (R127, R128) -/

/-- With the reset input asserted, a step is the reset event, whatever commands wait. -/
theorem step_eq_takeReset (h : s.resetIn = some b) : step s = .next (s.takeReset b) := by
  simp only [step, h]

/-- Power-up leaves what a reset event that binds the default parameters leaves (log entry 6). -/
theorem takeReset_reset : State.reset.takeReset Binding.initial = State.reset := rfl

/-- The reset event establishes what the invariant says of T and of the ports; only the answers were given before it. -/
theorem takeReset_inv (h : s.AnswersOk) : (s.takeReset b).Inv := ⟨tableOk_of_table_nil rfl, h, rfl⟩

theorem reset_answersOk : State.reset.AnswersOk := fun _ ha => absurd ha List.not_mem_nil

/-! ## The parameters (R129) -/

theorem exec_bind (h : exec i s = .next t) : t.bind = s.bind := by
  obtain ⟨hbind, -⟩ := commandFrame i s t h
  exact hbind

/-- Settles O13: of the ways of a step only the reset event binds parameters, and it binds those of the reset input. -/
theorem parametersFixedBetweenResets : Obligations.ParametersFixedBetweenResets := by
  intro s t h
  rcases step_cases h with ⟨b, hb, rfl⟩ | ⟨hn, -, -, rfl⟩ | ⟨p, c, rest, hn, -, -, ⟨i, -, hi⟩ | ⟨-, rfl⟩⟩
  · rw [hb, takeReset_bind, Option.getD_some]
  · rw [hn, Option.getD_none]
  · rw [hn, Option.getD_none, exec_bind hi, latch_bind]
  · rw [hn, Option.getD_none, respond_bind, latch_bind]

/-! ## The state a reset leaves -/

/-- Settles O10: the step is the reset event, and each register reads off the state it leaves. -/
theorem resetEventState : Obligations.ResetEventState := by
  intro s b hb
  refine ⟨s.takeReset b, step_eq_takeReset hb, takeReset_localAddr s b, fun _ => get_nil,
    readCfg_fpActive_of_table_nil (takeReset_table s b), readCfg_mfrCode, readCfg_industryCode, readCfg_gfPriority,
    takeReset_bind s b, readCfg_gfPgn, readCfg_cmdPrioByte, fun hslots => ?_, fun n hn hslots => ?_, takeReset_inp s b⟩
  · exact readCfg_fpSlots_unbounded hslots
  · exact readCfg_fpSlots_of_lt hslots hn

/-- Settles O11: what waits on the ports and what they answered is no part of what the event writes. -/
theorem resetKeepsHostQueues : Obligations.ResetKeepsHostQueues := by
  intro s t b hb h
  obtain rfl : s.takeReset b = t := Host.Outcome.next.inj ((step_eq_takeReset hb).symm.trans h)
  exact ⟨takeReset_tx s b, takeReset_rx s b, takeReset_answers s b, takeReset_resetIn s b⟩

/-- Settles O12: T is empty, and the parameters' registers read the defaults. -/
theorem stateAfterReset : Obligations.StateAfterReset :=
  ⟨rfl, fun _ => get_nil, readCfg_fpActive_of_table_nil rfl, readCfg_mfrCode, readCfg_industryCode, readCfg_gfPriority,
    readCfg_gfPgn, readCfg_cmdPrioByte, readCfg_fpSlots_unbounded rfl, rfl⟩

/-- Settles O17: the invariant holds after any reset event, and no answer has been given yet. -/
theorem resetMeetsInvariant : Obligations.ResetMeetsInvariant := by
  have h : (State.reset.takeReset Binding.initial).Inv := takeReset_inv reset_answersOk
  rwa [takeReset_reset] at h

end Sys2Proof.Machine
end
